-- ==== Sys2Proof/Word.lean ====
section
/-! DEFINITION. The word types of the CHIP-8 core (00_scope.md R7, R9, R10): every value is unsigned and wraps at its width. -/

namespace Sys2Proof

/-- One byte of memory, one general register, one timer (R7, R20, R33, R34). -/
abbrev Byte := BitVec 8

/-- An instruction word, the pc, I or a call-stack entry (R7, R24, R25, R29). -/
abbrev Word := BitVec 16

/-- The 12-bit address field nnn (30_encoding.md R71). -/
abbrev Addr12 := BitVec 12

/-- The 4-bit field n, and a key number at the key port (R71, R46). -/
abbrev Nibble := BitVec 4

/-- The index of a general register V0..VF or of a key: always valid (10_state.md R20, R35). -/
abbrev Reg := Fin 16

/-- V0, the register BNNN adds (41_control_flow.md R105). -/
abbrev Reg.v0 : Reg := 0

/-- VF, a general register and the flag sink (10_state.md R21). -/
abbrev Reg.vf : Reg := 15

end Sys2Proof
end

