-- ==== Sys2Proof/Config.lean ====
section
/-! DEFINITION. The implementation parameters of 00_scope.md R8, and the one free value of the machine. -/

namespace Sys2Proof

/-- `MEM_SIZE`: valid addresses are 0..4095 (R8, R50; the spec's decision D1). -/
def Config.memSize : Nat := 4096

/-- `PROG_BASE`: where `construct` places the program (R8, R57). -/
def Config.progBase : Nat := 0x200

/-- `PROG_LAST`: the last address a program byte may occupy (R8, R57). -/
def Config.progLast : Nat := 0xE8F

/-- `PROG_MAX` = 3216: the largest accepted program (R8, R56; 90_conflicts.md C1). -/
def Config.progMax : Nat := Config.progLast - Config.progBase + 1

/-- `ENTRY_PC`: the pc after construction (R8, R25; the spec's decision D3). -/
def Config.entryPc : Word := 0x200#16

/-- The number of bytes of a font glyph: glyph k stands at 5*k (R7, R54). -/
def Config.glyphBytes : Nat := 5

/-- `STACK_LIMIT`: none, the stack is unbounded (R8, R29; the spec's D9), kept as an
argument of the operations that read it (log entry 7): safe, since every statement about CALL says what a limit does. -/
def Config.stackLimit : Option Nat := none

/-- `DECODE_59_MASK`: the mask of 5XY0 and 9XY0 (R8, R73; the spec's D10). UNVERIFIED, kept as an
argument of the decoder (log entry 8): unsafe for a program that executes 5XYn or 9XYn with n not 0. -/
def Config.decode59Mask : Word := 0xF00F#16

/-- What `State.reset` takes for SHIFT_SRC_VY. The spec gives no default (R41, D17).
DESIGN CHOICE (log entry 4): unsafe for a claim about `State.reset` that rests on it. -/
def Config.resetShiftSrcVy : Bool := false

/-- What `State.reset` takes for LOADSTORE_INC_I. The spec gives no default (R41, D18).
DESIGN CHOICE (log entry 4): unsafe for a claim about `State.reset` that rests on it. -/
def Config.resetLoadstoreIncI : Bool := false

/-- Display width and height in pixels (R7, R45). -/
def Config.width : Nat := 64

@[inherit_doc Config.width] def Config.height : Nat := 32

/-- The byte the k-th random draw gives (10_state.md R42, 44_address_random.md R142): "a free input under no law".
A free value: it has no body, so nothing can be proved of its value. DESIGN CHOICE (log entry 3): safe. -/
opaque Config.randByte : Nat → Byte

end Sys2Proof
end

