-- ==== Sys2Proof/Syntax.lean ====
section
/-! DEFINITION. The 35 instructions of 30_encoding.md R78, one constructor per row of spec/opcode_table.json. -/

namespace Sys2Proof

/-- One constructor per row of the opcode map (30_encoding.md R78, R84). The fields are those of R71, each at its
own width, so an operand that does not fit its field cannot be written (R83). -/
inductive Instr where
  /-- 00E0 CLS (R100). -/
  | cls
  /-- 00EE RET (R101). -/
  | ret
  /-- 0NNN SYS nnn (R102). -/
  | sys (nnn : Addr12)
  /-- 1NNN JP nnn (R103). -/
  | jp (nnn : Addr12)
  /-- 2NNN CALL nnn (R104). -/
  | call (nnn : Addr12)
  /-- 3XNN SE Vx, nn (R110). -/
  | seImm (x : Reg) (nn : Byte)
  /-- 4XNN SNE Vx, nn (R111). -/
  | sneImm (x : Reg) (nn : Byte)
  /-- 5XY0 SE Vx, Vy (R112). -/
  | seReg (x y : Reg)
  /-- 6XNN LD Vx, nn (R120). -/
  | ldImm (x : Reg) (nn : Byte)
  /-- 7XNN ADD Vx, nn (R121). -/
  | addImm (x : Reg) (nn : Byte)
  /-- 8XY0 LD Vx, Vy (R122). -/
  | ldReg (x y : Reg)
  /-- 8XY1 OR Vx, Vy (R123). -/
  | orReg (x y : Reg)
  /-- 8XY2 AND Vx, Vy (R124). -/
  | andReg (x y : Reg)
  /-- 8XY3 XOR Vx, Vy (R125). -/
  | xorReg (x y : Reg)
  /-- 8XY4 ADD Vx, Vy (R126). -/
  | addReg (x y : Reg)
  /-- 8XY5 SUB Vx, Vy (R127). -/
  | subReg (x y : Reg)
  /-- 8XY6 SHR Vx, Vy (R128). -/
  | shr (x y : Reg)
  /-- 8XY7 SUBN Vx, Vy (R129). -/
  | subnReg (x y : Reg)
  /-- 8XYE SHL Vx, Vy (R130). -/
  | shl (x y : Reg)
  /-- 9XY0 SNE Vx, Vy (R113). -/
  | sneReg (x y : Reg)
  /-- ANNN LD I, nnn (R140). -/
  | ldI (nnn : Addr12)
  /-- BNNN JP V0, nnn (R105). -/
  | jpV0 (nnn : Addr12)
  /-- CXNN RND Vx, nn (R142). -/
  | rnd (x : Reg) (nn : Byte)
  /-- DXYN DRW Vx, Vy, n (R150). -/
  | drw (x y : Reg) (n : Nibble)
  /-- EX9E SKP Vx (R160). -/
  | skp (x : Reg)
  /-- EXA1 SKNP Vx (R161). -/
  | sknp (x : Reg)
  /-- FX07 LD Vx, DT (R162). -/
  | ldVxDt (x : Reg)
  /-- FX0A LD Vx, K (R163). -/
  | ldVxK (x : Reg)
  /-- FX15 LD DT, Vx (R164). -/
  | ldDtVx (x : Reg)
  /-- FX18 LD ST, Vx (R165). -/
  | ldStVx (x : Reg)
  /-- FX1E ADD I, Vx (R141). -/
  | addI (x : Reg)
  /-- FX29 LD F, Vx (R170). -/
  | ldF (x : Reg)
  /-- FX33 LD B, Vx (R171). -/
  | ldB (x : Reg)
  /-- FX55 LD [I], Vx (R172). -/
  | dump (x : Reg)
  /-- FX65 LD Vx, [I] (R173). -/
  | load (x : Reg)
deriving DecidableEq, Repr

end Sys2Proof
end

