-- ==== Sys2Proof/Decode.lean ====
section
/-! DEFINITION. The decoder (30_encoding.md R70 to R80), total on all words and all byte lists, and the encoder after it. -/

namespace Sys2Proof

/-- The fields of an instruction word; "the decoder extracts all of them for every word" (R71). -/
structure Fields where
  x : Reg
  y : Reg
  n : Nibble
  nn : Byte
  nnn : Addr12
deriving DecidableEq, Repr

/-- `reg_x` = bits 8-11, `reg_y` = bits 4-7, `nnn` = low 12 bits, `nn` = low 8 bits, `n` = low 4 bits (R71). -/
def fieldsOf (w : Word) : Fields where
  x := (w.extractLsb' 8 4).toFin
  y := (w.extractLsb' 4 4).toFin
  n := w.extractLsb' 0 4
  nn := w.extractLsb' 0 8
  nnn := w.extractLsb' 0 12

/-- A row of the dispatcher: a word w matches (m, p) when `(w & m) == p` (R73). -/
structure Pattern where
  mask : Word
  value : Word
  build : Fields → Instr

/-- The match test of R73. -/
def Pattern.accepts (p : Pattern) (w : Word) : Bool := w &&& p.mask == p.value

/-- Group 1 of R73: the exact words. -/
def exactPatterns : List Pattern :=
  [ ⟨0xFFFF#16, 0x00E0#16, fun _ => .cls⟩,
    ⟨0xFFFF#16, 0x00EE#16, fun _ => .ret⟩ ]

/-- Group 2 of R73: the high nibble alone. -/
def highNibblePatterns : List Pattern :=
  [ ⟨0xF000#16, 0x0000#16, fun f => .sys f.nnn⟩,
    ⟨0xF000#16, 0x1000#16, fun f => .jp f.nnn⟩,
    ⟨0xF000#16, 0x2000#16, fun f => .call f.nnn⟩,
    ⟨0xF000#16, 0x3000#16, fun f => .seImm f.x f.nn⟩,
    ⟨0xF000#16, 0x4000#16, fun f => .sneImm f.x f.nn⟩,
    ⟨0xF000#16, 0x6000#16, fun f => .ldImm f.x f.nn⟩,
    ⟨0xF000#16, 0x7000#16, fun f => .addImm f.x f.nn⟩,
    ⟨0xF000#16, 0xA000#16, fun f => .ldI f.nnn⟩,
    ⟨0xF000#16, 0xB000#16, fun f => .jpV0 f.nnn⟩,
    ⟨0xF000#16, 0xC000#16, fun f => .rnd f.x f.nn⟩,
    ⟨0xF000#16, 0xD000#16, fun f => .drw f.x f.y f.n⟩ ]

/-- Group 3 of R73: the high and the low nibble. 5XY0 and 9XY0 take the parameter `DECODE_59_MASK`; with the
mask 0xF000 the spec moves them to group 2, which selects the same, since no other pattern has their high nibble. -/
def registerPairPatterns (mask59 : Word) : List Pattern :=
  [ ⟨mask59, 0x5000#16, fun f => .seReg f.x f.y⟩,
    ⟨0xF00F#16, 0x8000#16, fun f => .ldReg f.x f.y⟩,
    ⟨0xF00F#16, 0x8001#16, fun f => .orReg f.x f.y⟩,
    ⟨0xF00F#16, 0x8002#16, fun f => .andReg f.x f.y⟩,
    ⟨0xF00F#16, 0x8003#16, fun f => .xorReg f.x f.y⟩,
    ⟨0xF00F#16, 0x8004#16, fun f => .addReg f.x f.y⟩,
    ⟨0xF00F#16, 0x8005#16, fun f => .subReg f.x f.y⟩,
    ⟨0xF00F#16, 0x8006#16, fun f => .shr f.x f.y⟩,
    ⟨0xF00F#16, 0x8007#16, fun f => .subnReg f.x f.y⟩,
    ⟨0xF00F#16, 0x800E#16, fun f => .shl f.x f.y⟩,
    ⟨mask59, 0x9000#16, fun f => .sneReg f.x f.y⟩ ]

/-- Group 4 of R73: the high nibble and the low byte. -/
def lowBytePatterns : List Pattern :=
  [ ⟨0xF0FF#16, 0xE09E#16, fun f => .skp f.x⟩,
    ⟨0xF0FF#16, 0xE0A1#16, fun f => .sknp f.x⟩,
    ⟨0xF0FF#16, 0xF007#16, fun f => .ldVxDt f.x⟩,
    ⟨0xF0FF#16, 0xF00A#16, fun f => .ldVxK f.x⟩,
    ⟨0xF0FF#16, 0xF015#16, fun f => .ldDtVx f.x⟩,
    ⟨0xF0FF#16, 0xF018#16, fun f => .ldStVx f.x⟩,
    ⟨0xF0FF#16, 0xF01E#16, fun f => .addI f.x⟩,
    ⟨0xF0FF#16, 0xF029#16, fun f => .ldF f.x⟩,
    ⟨0xF0FF#16, 0xF033#16, fun f => .ldB f.x⟩,
    ⟨0xF0FF#16, 0xF055#16, fun f => .dump f.x⟩,
    ⟨0xF0FF#16, 0xF065#16, fun f => .load f.x⟩ ]

/-- The four groups in their order of priority (R73). UNVERIFIED (log entry 12): the spec supplies the patterns but
00E0 and 00EE from general knowledge: unsafe if the hardware's differ. -/
def patterns (mask59 : Word) : List Pattern :=
  exactPatterns ++ highNibblePatterns ++ registerPairPatterns mask59 ++ lowBytePatterns

/-- "First matching pattern wins" (R73), for either value of `DECODE_59_MASK`; none is an unimplemented word (R77). -/
def decodeWith (mask59 : Word) (w : Word) : Option Instr :=
  ((patterns mask59).find? (fun p => p.accepts w)).map (fun p => p.build (fieldsOf w))

/-- The decoder of this machine (R73 with `DECODE_59_MASK` = 0xF00F). -/
def decodeWord (w : Word) : Option Instr := decodeWith Config.decode59Mask w

/-- Why bytes give no instruction. -/
inductive DecodeError where
  /-- The word matches no pattern: unimplemented (R77, R80). It is no fault; the step gives it R96's effect. -/
  | unimplemented (w : Word)
  /-- Fewer than two bytes: an instruction is exactly two (R70). -/
  | truncated
deriving DecidableEq, Repr

/-- The word of two bytes, the high byte at the lower address (20_memory.md R60). -/
def wordOfBytes (hi lo : Byte) : Word := hi ++ lo

/-- Decoding a list of bytes: the instruction and the bytes after it. Total; every failure is named. -/
def decode : List Byte → Except DecodeError (Instr × List Byte)
  | hi :: lo :: rest =>
    match decodeWord (wordOfBytes hi lo) with
    | some i => .ok (i, rest)
    | none => .error (.unimplemented (wordOfBytes hi lo))
  | _ => .error .truncated

/-- The four bits of a register field (R71). -/
def regBits (r : Reg) : Nibble := BitVec.ofFin r

/-- A word of the form op, nnn (R71, R78). -/
def encodeNNN (op : Nibble) (nnn : Addr12) : Word := op ++ nnn

/-- A word of the form op, x, nn (R71, R78). -/
def encodeXNN (op : Nibble) (x : Reg) (nn : Byte) : Word := encodeNNN op (regBits x ++ nn)

/-- A word of the form op, x, y, n (R71, R78). -/
def encodeXYN (op : Nibble) (x y : Reg) (n : Nibble) : Word := encodeXNN op x (regBits y ++ n)

/-- The word of an instruction, from the column "pattern" of R78. -/
def encode : Instr → Word
  | .cls => 0x00E0#16
  | .ret => 0x00EE#16
  | .sys nnn => encodeNNN 0x0#4 nnn
  | .jp nnn => encodeNNN 0x1#4 nnn
  | .call nnn => encodeNNN 0x2#4 nnn
  | .seImm x nn => encodeXNN 0x3#4 x nn
  | .sneImm x nn => encodeXNN 0x4#4 x nn
  | .seReg x y => encodeXYN 0x5#4 x y 0x0#4
  | .ldImm x nn => encodeXNN 0x6#4 x nn
  | .addImm x nn => encodeXNN 0x7#4 x nn
  | .ldReg x y => encodeXYN 0x8#4 x y 0x0#4
  | .orReg x y => encodeXYN 0x8#4 x y 0x1#4
  | .andReg x y => encodeXYN 0x8#4 x y 0x2#4
  | .xorReg x y => encodeXYN 0x8#4 x y 0x3#4
  | .addReg x y => encodeXYN 0x8#4 x y 0x4#4
  | .subReg x y => encodeXYN 0x8#4 x y 0x5#4
  | .shr x y => encodeXYN 0x8#4 x y 0x6#4
  | .subnReg x y => encodeXYN 0x8#4 x y 0x7#4
  | .shl x y => encodeXYN 0x8#4 x y 0xE#4
  | .sneReg x y => encodeXYN 0x9#4 x y 0x0#4
  | .ldI nnn => encodeNNN 0xA#4 nnn
  | .jpV0 nnn => encodeNNN 0xB#4 nnn
  | .rnd x nn => encodeXNN 0xC#4 x nn
  | .drw x y n => encodeXYN 0xD#4 x y n
  | .skp x => encodeXNN 0xE#4 x 0x9E#8
  | .sknp x => encodeXNN 0xE#4 x 0xA1#8
  | .ldVxDt x => encodeXNN 0xF#4 x 0x07#8
  | .ldVxK x => encodeXNN 0xF#4 x 0x0A#8
  | .ldDtVx x => encodeXNN 0xF#4 x 0x15#8
  | .ldStVx x => encodeXNN 0xF#4 x 0x18#8
  | .addI x => encodeXNN 0xF#4 x 0x1E#8
  | .ldF x => encodeXNN 0xF#4 x 0x29#8
  | .ldB x => encodeXNN 0xF#4 x 0x33#8
  | .dump x => encodeXNN 0xF#4 x 0x55#8
  | .load x => encodeXNN 0xF#4 x 0x65#8

/-- The bytes of a word as memory holds them: the high byte at the lower address (R60). -/
def bytesOfWord (w : Word) : List Byte := [w.extractLsb' 8 8, w.extractLsb' 0 8]

/-- The bytes of an instruction as memory holds them. -/
def encodeBytes (i : Instr) : List Byte := bytesOfWord (encode i)

/-- The word an opcode-table word `w` of `nbits` bits stands for: an instruction is one 16-bit word, whose bits
above `nbits` are 0. -/
def tableWord (nbits w : Nat) : Word := BitVec.ofNat 16 (w % 2 ^ nbits)

/-- The instruction the decoder reads from a word numbered as spec/opcode_table.json numbers it. -/
def decodeTableWord (nbits w : Nat) : Option Instr :=
  match decode (bytesOfWord (tableWord nbits w)) with
  | .ok (i, _) => some i
  | .error _ => none

end Sys2Proof
end

