-- ==== Sys2Proof/Machine/State.lean ====
section
/-! DEFINITION. The state of the machine (10_state.md R47), the causes a fault records, and the state after reset. -/

namespace Sys2Proof.Machine

/-- The fault causes of 60_exceptions.md R182, each with its info. The spec says what taking one does (R181): the
core halts and records the cause, which is a NEXT state. So a cause is recorded in `State.faultCause`, and no
instruction and no step of this model ends in `Outcome.fault`. DEDUCED (log entry 5): safe. -/
inductive Fault where
  /-- Code 1. Raised by fetch, DXYN, FX33, FX55 and FX65 for the lowest address `a` at or above `MEM_SIZE` they
  would access (R53, R93). Safe: the model stops where software might go on (D2). -/
  | memOutOfRange (a : Nat)
  /-- Code 2. Raised by 00EE at `pc` when the call stack is empty (R101). Safe (D8). -/
  | stackUnderflow (pc : Word)
  /-- Code 3. Raised by 2NNN at `pc` only where a `STACK_LIMIT` is set and reached (R104). Safe (D9). -/
  | stackOverflow (pc : Word)
deriving DecidableEq, Repr

/-- What the model gives no meaning to. -/
inductive Refusal where
  /-- An instruction that has no meaning yet. Raised by no arm of `exec`: every instruction has its meaning. Safe. -/
  | notModelled (mnemonic : String)
  /-- `construct` was given more than `PROG_MAX` bytes: no state exists (R56, R184). Raised by
  `State.construct` alone, never by a step. Safe. -/
  | programTooLarge (length : Nat)
deriving DecidableEq, Repr

/-- The two configuration inputs, fixed at construction (10_state.md R41). -/
structure Policy where
  /-- `SHIFT_SRC_VY`: 8XY6 and 8XYE shift Vy (true) or Vx (false). -/
  shiftSrcVy : Bool
  /-- `LOADSTORE_INC_I`: FX55 and FX65 advance I by x + 1 (true) or leave it (false). -/
  loadstoreIncI : Bool
deriving DecidableEq, Repr

/-- Memory: the listed (address, byte) pairs, in the canonical form of `Memory.wf`. -/
abbrev Memory := List Host.Cell

/-- The display: 32 rows of 64 one-bit pixels, the most significant bit of a row at column 0 (R31).
DESIGN CHOICE of representation (log entry 11): safe. -/
abbrev Screen := Vector (BitVec 64) 32

/-- The complete state of the core (10_state.md R47), and below it the model's own two fields. -/
structure State where
  /-- Memory (R50). -/
  mem : Memory
  /-- V0..VF (R20). -/
  v : Vector Byte 16
  /-- The address register I (R24). -/
  i : Word
  /-- The program counter (R25). -/
  pc : Word
  /-- The call stack, the last pushed entry first (R29; DESIGN CHOICE, log entry 11: safe). -/
  stack : List Word
  /-- The display (R31). -/
  disp : Screen
  /-- The delay timer DT (R33). -/
  dt : Byte
  /-- The sound timer ST (R34). -/
  st : Byte
  /-- `Key[0..15]`, true = down (R35). -/
  keys : Vector Bool 16
  /-- The last-pressed-key latch (R36). -/
  latch : Nibble
  /-- The key-wait flag `Armed` (R37). -/
  armed : Bool
  /-- `KeyEvent`: a press was observed while armed (R38). -/
  keyEvent : Bool
  /-- `Halted` (R43). -/
  halted : Bool
  /-- `FaultCause` (R43). -/
  faultCause : Option Fault
  /-- The configuration inputs (R41). -/
  cfg : Policy
  /-- The MODEL'S OWN: how many random bytes have been drawn (DESIGN CHOICE, log entry 3: safe). No statement rests on
  its value. -/
  draws : Nat
  /-- The MODEL'S OWN: the words emitted on the output port `diag` so far, newest first (R183;
  DESIGN CHOICE, log entry 6: safe).
  No instruction reads it. -/
  diag : List Word
deriving DecidableEq, Repr

/-- The machine right after `construct` of the empty program (70_reset_and_hazards.md R200, 10_state.md R47). The
spec states every value but the two of `cfg` (log entry 4), the bytes `INIT_MEM` (log entry 1) and the model's own
fields (log entries 3 and 6). -/
def State.reset : State where
  mem := []
  v := Vector.replicate 16 0#8
  i := 0#16
  pc := Config.entryPc
  stack := []
  disp := Vector.replicate 32 0#64
  dt := 0#8
  st := 0#8
  keys := Vector.replicate 16 false
  latch := 0#4
  armed := false
  keyEvent := false
  halted := false
  faultCause := none
  cfg := ⟨Config.resetShiftSrcVy, Config.resetLoadstoreIncI⟩
  draws := 0
  diag := []

end Sys2Proof.Machine
end

