-- ==== Sys2Proof/Machine/Memory.lean ====
section
/-! DEFINITION. Memory as a canonical list of bytes: what an unlisted address reads as, reading, writing, the
canonical form, and the image `construct` builds (20_memory.md R50 to R59). -/

namespace Sys2Proof.Machine

/-- The number of font bytes: addresses 0x000..0x04F (R52, R54). -/
def fontSize : Nat := 16 * Config.glyphBytes

/-- A value of the parameter `FONT`: 80 bytes, glyph k at 5*k..5*k+4 (R8, R54, R55). -/
abbrev Font := Vector Byte fontSize

/-- The default of `FONT`: the table of R55, glyph by glyph. UNVERIFIED (log entry 2): the spec supplies the table from
general knowledge, so a claim that reads a byte of it rests on it: unsafe. `State.construct` takes any `FONT`. -/
def fontBytes : Font :=
  ⟨([0xF0#8, 0x90#8, 0x90#8, 0x90#8, 0xF0#8] ++ [0x20#8, 0x60#8, 0x20#8, 0x20#8, 0x70#8] ++
    [0xF0#8, 0x10#8, 0xF0#8, 0x80#8, 0xF0#8] ++ [0xF0#8, 0x10#8, 0xF0#8, 0x10#8, 0xF0#8] ++
    [0x90#8, 0x90#8, 0xF0#8, 0x10#8, 0x10#8] ++ [0xF0#8, 0x80#8, 0xF0#8, 0x10#8, 0xF0#8] ++
    [0xF0#8, 0x80#8, 0xF0#8, 0x90#8, 0xF0#8] ++ [0xF0#8, 0x10#8, 0x20#8, 0x40#8, 0x40#8] ++
    [0xF0#8, 0x90#8, 0xF0#8, 0x90#8, 0xF0#8] ++ [0xF0#8, 0x90#8, 0xF0#8, 0x10#8, 0xF0#8] ++
    [0xF0#8, 0x90#8, 0xF0#8, 0x90#8, 0x90#8] ++ [0xE0#8, 0x90#8, 0xE0#8, 0x90#8, 0xE0#8] ++
    [0xF0#8, 0x80#8, 0x80#8, 0x80#8, 0xF0#8] ++ [0xE0#8, 0x90#8, 0x90#8, 0x90#8, 0xE0#8] ++
    [0xF0#8, 0x80#8, 0xF0#8, 0x80#8, 0xF0#8] ++ [0xF0#8, 0x80#8, 0xF0#8, 0x80#8, 0x80#8]).toArray, rfl⟩

/-- What an address that memory does not list reads as: the default `FONT` at 0x000..0x04F (R54), elsewhere 0x00.
The 0x00 is the model's DESIGN CHOICE of `INIT_MEM` (log entry 1): unsafe for a claim about `State.reset`. It fixes only
which bytes are listed: a core constructed with another `FONT` or `INIT_MEM` lists the bytes that differ. -/
def Memory.initial (a : Nat) : Byte := if h : a < fontSize then fontBytes[a] else 0#8

/-- The byte at an address (R66). -/
def Memory.get : Memory → Nat → Byte
  | [], a => Memory.initial a
  | (k, b) :: m, a => if a = k then b else Memory.get m a

/-- The memory with nothing listed at `a`. -/
def Memory.unlist (m : Memory) (a : Nat) : Memory := m.filter (fun c => c.1 != a)

/-- The memory with the pair put at its place in rising order. -/
def Memory.insertCell (a : Nat) (b : Byte) : Memory → Memory
  | [] => [(a, b)]
  | (k, c) :: m => if a < k then (a, b) :: (k, c) :: m else (k, c) :: Memory.insertCell a b m

/-- Storing a byte (R59, R65): the byte is listed only where it differs from what an unlisted address reads as. -/
def Memory.set (m : Memory) (a : Nat) (b : Byte) : Memory :=
  if b = Memory.initial a then m.unlist a else Memory.insertCell a b (m.unlist a)

/-- Storing bytes at `a`, `a + 1`, ... in this order (R63). -/
def Memory.setMany (m : Memory) (a : Nat) : List Byte → Memory
  | [] => m
  | b :: bs => Memory.setMany (m.set a b) (a + 1) bs

/-- The `n` bytes at `a`, `a + 1`, ... (R63). -/
def Memory.getMany (m : Memory) (a n : Nat) : List Byte := (List.range n).map (fun k => m.get (a + k))

/-- Addresses rise strictly from `lo`, exist (R50), and no entry equals what an unlisted address reads as. -/
def Memory.canonicalFrom : Nat → Memory → Bool
  | _, [] => true
  | lo, (a, b) :: m =>
    decide (lo ≤ a) && decide (a < Config.memSize) && b != Memory.initial a && Memory.canonicalFrom (a + 1) m

/-- Memory is in its one canonical form. -/
def Memory.wf (m : Memory) : Bool := Memory.canonicalFrom 0 m

/-- The memory whose byte at every address below `MEM_SIZE` is `f` of it. -/
def Memory.ofImage (f : Nat → Byte) : Memory :=
  (List.range Config.memSize).filterMap (fun a => if f a = Memory.initial a then none else some (a, f a))

end Sys2Proof.Machine
end

