-- ==== Sys2Proof/Machine/Ops.lean ====
section
/-! DEFINITION. The named operations over registers, memory, stack, display, timers and keys, taking a fault, and
the host's key port. Every meaning is written over these. -/

namespace Sys2Proof.Machine

/-- What a meaning or a step answers. -/
abbrev Result := Host.Outcome State Fault Refusal

/-- `V[x]` (00_scope.md R11). -/
def State.reg (s : State) (x : Reg) : Byte := s.v[x]

/-- `V[x] <- b` (R11). No register is hardwired (R20). -/
def State.setReg (s : State) (x : Reg) (b : Byte) : State := { s with v := s.v.set x b }

/-- `I <- w` (R11). -/
def State.setI (s : State) (w : Word) : State := { s with i := w }

/-- `pc <- w` (R11). -/
def State.setPc (s : State) (w : Word) : State := { s with pc := w }

/-- `DT <- b` (R11). -/
def State.setDt (s : State) (b : Byte) : State := { s with dt := b }

/-- `ST <- b` (R11). -/
def State.setSt (s : State) (b : Byte) : State := { s with st := b }

/-- The new display. -/
def State.setDisp (s : State) (d : Screen) : State := { s with disp := d }

/-- The new memory. -/
def State.setMem (s : State) (m : Memory) : State := { s with mem := m }

/-- The new call stack. -/
def State.setStack (s : State) (l : List Word) : State := { s with stack := l }

/-- The two flags of the key wait (10_state.md R37, R38). -/
def State.setWait (s : State) (armed keyEvent : Bool) : State := { s with armed := armed, keyEvent := keyEvent }

/-- `pc <- (pc + 2) mod 2^16` (40_cycle.md R95). -/
def State.advance (s : State) : State := s.setPc (s.pc + 2#16)

/-- `pc <- (pc + 4) mod 2^16` where the condition holds, else `pc + 2` (42_skips.md R114). The skipped word is not
fetched or checked. -/
def State.skipIf (s : State) (taken : Bool) : State := s.setPc (s.pc + if taken then 4#16 else 2#16)

/-- `MemRead(a, 1)` (R11). -/
def State.readByte (s : State) (a : Nat) : Byte := s.mem.get a

/-- Storing bytes at `a`, `a + 1`, ... -/
def State.storeBytes (s : State) (a : Nat) (bs : List Byte) : State := s.setMem (s.mem.setMany a bs)

/-- `V[0], V[1], ... <-` the bytes of the list, in this order; the other registers keep their values. -/
def State.setRegsFrom (s : State) : Nat → List Byte → State
  | _, [] => s
  | k, b :: bs => if h : k < 16 then (s.setReg ⟨k, h⟩ b).setRegsFrom (k + 1) bs else s

/-- The values of `V[0]`, ..., `V[x]`. -/
def State.regsUpTo (s : State) (x : Reg) : List Byte := s.v.toList.take (x.val + 1)

/-- `push(w)` (R11). -/
def State.push (s : State) (w : Word) : State := s.setStack (w :: s.stack)

/-- The random byte of this step, and the state in which it has been drawn (10_state.md R42): a free value, numbered
by `draws`. -/
def State.draw (s : State) : Byte × State := (Config.randByte s.draws, { s with draws := s.draws + 1 })

/-- `signal Unimplemented(w)`: the output event of 60_exceptions.md R183. -/
def State.signalUnimplemented (s : State) (w : Word) : State := { s with diag := w :: s.diag }

/-- TAKING A FAULT, the one shared operation: `raise F(info)` of 60_exceptions.md R181. `Halted` and `FaultCause` are
set and nothing else changes: pc keeps the instruction's address, and no state is saved and no control transferred
(R188). There is no return from it: only a new `construct` ends the halt (R202). -/
def State.raise (s : State) (f : Fault) : State := { s with halted := true, faultCause := some f }

/-- The lowest address at or above `MEM_SIZE` among `a`, ..., `a + n - 1`: the addresses are unbounded naturals,
tried in increasing order (20_memory.md R53, R69; 60_exceptions.md R186). -/
def outOfRange (a n : Nat) : Option Nat :=
  ((List.range n).find? (fun k => decide (Config.memSize ≤ a + k))).map (fun k => a + k)

/-- The check that precedes an access to `n` bytes at `a`: the fault of R53, or what the instruction goes on to. -/
def State.withRange (s : State) (a n : Nat) (go : State) : Result :=
  match outOfRange a n with
  | some bad => .next (s.raise (.memOutOfRange bad))
  | none => .next go

/-- `press(k)`: Key[k] <- true; Latch <- k; if Armed then KeyEvent <- true (10_state.md R39). -/
def State.press (s : State) (k : Nibble) : State :=
  { s with keys := s.keys.set k.toFin true, latch := k, keyEvent := s.keyEvent || s.armed }

/-- `release(k)`: Key[k] <- false, nothing else (10_state.md R40). -/
def State.release (s : State) (k : Nibble) : State := { s with keys := s.keys.set k.toFin false }

end Sys2Proof.Machine
end

