-- ==== Sys2Proof/Machine/Operands.lean ====
section
/-! DEFINITION. Every operand form of the spec: the address I + k, the 12-bit target, the shift source, the key a
register names, the glyph address, the decimal digits and the row of a sprite. -/

namespace Sys2Proof.Machine

/-- The address I, as an unbounded natural: byte k of an access is at `addressI s + k` (20_memory.md R69). -/
def State.addressI (s : State) : Nat := s.i.toNat

/-- `zext_16(nnn)` (30_encoding.md R72). -/
def targetOf (nnn : Addr12) : Word := nnn.setWidth 16

/-- `zext_16(V[x])` (00_scope.md R10). -/
def State.regWord (s : State) (x : Reg) : Word := (s.reg x).setWidth 16

/-- The value 8XY6 and 8XYE shift: `SHIFT_SRC_VY ? vy : vx` (43_alu.md R128, R130). -/
def State.shiftSource (s : State) (x y : Reg) : Byte := if s.cfg.shiftSrcVy then s.reg y else s.reg x

/-- `(k <= 15) and Key[k]` for k = V[x]; a value above 15 is "key not pressed" (46_keys_timers.md R160; C6). -/
def State.keyDown (s : State) (x : Reg) : Bool :=
  if h : (s.reg x).toNat < 16 then s.keys[(s.reg x).toNat] else false

/-- `zext_16(V[x] & 0xF) * 5` (47_memory_ops.md R170). -/
def glyphAddress (b : Byte) : Word := (b &&& 0x0F#8).setWidth 16 * 5#16

/-- Hundreds, tens and units (47_memory_ops.md R171). -/
def bcdDigits (b : Byte) : List Byte := [b / 100#8, b / 10#8 % 10#8, b % 10#8]

/-- I after FX55 or FX65: `(I + x + 1) mod 2^16` where `LOADSTORE_INC_I`, else I (R172, R173). -/
def State.blockEndI (s : State) (x : Reg) : Word :=
  if s.cfg.loadstoreIncI then s.i + BitVec.ofNat 16 (x.val + 1) else s.i

/-- The start column `V[x] mod 64` (45_display.md R150). -/
def State.startColumn (s : State) (x : Reg) : Nat := (s.reg x).toNat % Config.width

/-- The start row `V[y] mod 32` (45_display.md R150). -/
def State.startRow (s : State) (y : Reg) : Nat := (s.reg y).toNat % Config.height

/-- A sprite byte at column `x0` of a row: bit 7 at `x0`, bit 0 at `x0 + 7` (45_display.md R151), the columns from
64 on dropped (R152). UNVERIFIED (log entry 12): the bit order is the spec's general knowledge: unsafe if it differs. -/
def spriteRow (b : Byte) (x0 : Nat) : BitVec 64 := (b ++ 0#56) >>> x0

/-- The display bit at column x, row y (00_scope.md R11); false outside the display. -/
def Screen.pixel (d : Screen) (x y : Nat) : Bool := if h : y < 32 then d[y].getMsbD x else false

end Sys2Proof.Machine
end

