-- ==== Sys2Proof/Machine/Flags.lean ====
section
/-! DEFINITION. Every flag computation of the spec: VF is the only flag (10_state.md R23), and its write is the last
(00_scope.md R12, 43_alu.md R132). -/

namespace Sys2Proof.Machine

/-- A condition as the value of VF: 1 or 0. -/
def flagOf (c : Bool) : Byte := if c then 1#8 else 0#8

/-- Carry: 1 iff the 9-bit sum exceeds 255 (R126, R131). -/
def carryFlag (a b : Byte) : Byte := flagOf (decide (a.toNat + b.toNat > 255))

/-- Not borrow of a - b: 0 iff a < b (R127, R129, R131). -/
def notBorrowFlag (a b : Byte) : Byte := flagOf (!decide (a.toNat < b.toNat))

/-- The bit a right shift moves out: the old LSB (R128). -/
def lsbFlag (a : Byte) : Byte := a &&& 1#8

/-- The bit a left shift moves out: the old MSB (R130). -/
def msbFlag (a : Byte) : Byte := a >>> 7

/-- The result into V[x] and the flag into VF, the flag last (R12, R21, R132). -/
def State.setRegFlag (s : State) (x : Reg) (result flag : Byte) : State := (s.setReg x result).setReg Reg.vf flag

end Sys2Proof.Machine
end

