-- ==== Sys2Proof/Machine/Address.lean ====
section
/-! DEFINITION. The address register and the random byte: LD I, ADD I, RND (44_address_random.md). -/

namespace Sys2Proof.Machine

/-- ANNN LD I, nnn (R140). -/
def execLdI (nnn : Addr12) (s : State) : Result := .next (s.setI (targetOf nnn)).advance

/-- FX1E ADD I, Vx: mod 2^16, no flag, no bounds check (R141). -/
def execAddI (x : Reg) (s : State) : Result := .next (s.setI (s.i + s.regWord x)).advance

/-- CXNN RND Vx, nn: a byte drawn for this step, under the mask (R142). -/
def execRnd (x : Reg) (nn : Byte) (s : State) : Result :=
  .next (s.draw.2.setReg x (s.draw.1 &&& nn)).advance

end Sys2Proof.Machine
end

