-- ==== Sys2Proof/Machine/Alu.lean ====
section
/-! DEFINITION. Immediate loads and the 8-bit ALU (43_alu.md). Sources are read before any write and VF is written
last (00_scope.md R12). -/

namespace Sys2Proof.Machine

/-- A result into V[x], no flag (R120 to R125). -/
def finishAlu (s : State) (x : Reg) (result : Byte) : Result := .next (s.setReg x result).advance

/-- A result into V[x] and the flag into VF (R126 to R130). -/
def finishAluFlag (s : State) (x : Reg) (result flag : Byte) : Result := .next (s.setRegFlag x result flag).advance

/-- 6XNN LD Vx, nn (R120). -/
def execLdImm (x : Reg) (nn : Byte) (s : State) : Result := finishAlu s x nn

/-- 7XNN ADD Vx, nn: wraps, no flag (R121). -/
def execAddImm (x : Reg) (nn : Byte) (s : State) : Result := finishAlu s x (s.reg x + nn)

/-- 8XY0 LD Vx, Vy (R122). -/
def execLdReg (x y : Reg) (s : State) : Result := finishAlu s x (s.reg y)

/-- 8XY1 OR Vx, Vy (R123). -/
def execOrReg (x y : Reg) (s : State) : Result := finishAlu s x (s.reg x ||| s.reg y)

/-- 8XY2 AND Vx, Vy (R124). -/
def execAndReg (x y : Reg) (s : State) : Result := finishAlu s x (s.reg x &&& s.reg y)

/-- 8XY3 XOR Vx, Vy (R125). -/
def execXorReg (x y : Reg) (s : State) : Result := finishAlu s x (s.reg x ^^^ s.reg y)

/-- 8XY4 ADD Vx, Vy, VF = carry (R126). -/
def execAddReg (x y : Reg) (s : State) : Result :=
  finishAluFlag s x (s.reg x + s.reg y) (carryFlag (s.reg x) (s.reg y))

/-- 8XY5 SUB Vx, Vy, VF = not borrow (R127). -/
def execSubReg (x y : Reg) (s : State) : Result :=
  finishAluFlag s x (s.reg x - s.reg y) (notBorrowFlag (s.reg x) (s.reg y))

/-- 8XY6 SHR Vx, Vy, VF = the bit shifted out; Vy is never written (R128). -/
def execShr (x y : Reg) (s : State) : Result :=
  finishAluFlag s x (s.shiftSource x y >>> 1) (lsbFlag (s.shiftSource x y))

/-- 8XY7 SUBN Vx, Vy: Vy - Vx, VF = not borrow (R129). -/
def execSubnReg (x y : Reg) (s : State) : Result :=
  finishAluFlag s x (s.reg y - s.reg x) (notBorrowFlag (s.reg y) (s.reg x))

/-- 8XYE SHL Vx, Vy, VF = the bit shifted out; Vy is never written (R130). -/
def execShl (x y : Reg) (s : State) : Result :=
  finishAluFlag s x (s.shiftSource x y <<< 1) (msbFlag (s.shiftSource x y))

end Sys2Proof.Machine
end

