-- ==== Sys2Proof/Machine/Control.lean ====
section
/-! DEFINITION. Control flow: CLS, RET, SYS, JP, CALL, JP V0 (41_control_flow.md). -/

namespace Sys2Proof.Machine

/-- 00E0 CLS: every pixel 0 (R100). -/
def execCls (s : State) : Result := .next (s.setDisp (Vector.replicate 32 0#64)).advance

/-- 00EE RET: pop the stack into pc, then + 2; `StackUnderflow(pc)` on an empty stack (R101). -/
def execRet (s : State) : Result :=
  match s.stack with
  | [] => .next (s.raise (.stackUnderflow s.pc))
  | a :: rest => .next ((s.setStack rest).setPc (a + 2#16))

/-- 0NNN SYS nnn: accepted, no effect beyond advancing pc, no diagnostic (R102). -/
def execSys (_nnn : Addr12) (s : State) : Result := .next s.advance

/-- 1NNN JP nnn (R103). -/
def execJp (nnn : Addr12) (s : State) : Result := .next (s.setPc (targetOf nnn))

/-- The stack holds as many entries as the limit allows (R104). -/
def stackFull (limit : Option Nat) (l : List Word) : Bool :=
  match limit with
  | none => false
  | some d => decide (d ≤ l.length)

/-- 2NNN CALL nnn under a `STACK_LIMIT`: push this instruction's address, jump; `StackOverflow(pc)` at the limit
(R104, R29). A stack deeper than the limit, which no run reaches, also overflows (DESIGN CHOICE, log
entry 7: safe). -/
def callWith (limit : Option Nat) (nnn : Addr12) (s : State) : Result :=
  if stackFull limit s.stack then .next (s.raise (.stackOverflow s.pc))
  else .next ((s.push s.pc).setPc (targetOf nnn))

/-- 2NNN CALL nnn of this machine: `STACK_LIMIT` = none (R104, R8). -/
def execCall (nnn : Addr12) (s : State) : Result := callWith Config.stackLimit nnn s

/-- BNNN JP V0, nnn: the 16-bit sum, not reduced to 12 bits (R105). -/
def execJpV0 (nnn : Addr12) (s : State) : Result := .next (s.setPc (targetOf nnn + s.regWord Reg.v0))

end Sys2Proof.Machine
end

