-- ==== Sys2Proof/Machine/Draw.lean ====
section
/-! DEFINITION. Sprite draw with collision: DRW (45_display.md). -/

namespace Sys2Proof.Machine

/-- The rows of a sprite, from row `y` down, XORed into the display, with the collision so far: a row at or below the
bottom edge is skipped (R150, R152), and a pixel that was set and is hit collides (R153). -/
def drawRows (x0 : Nat) : Nat → List Byte → Screen × Bool → Screen × Bool
  | _, [], acc => acc
  | y, b :: bs, (d, hit) =>
    if h : y < 32 then
      drawRows x0 (y + 1) bs
        (d.set y (d[y] ^^^ spriteRow b x0), hit || d[y] &&& spriteRow b x0 != 0#64)
    else drawRows x0 (y + 1) bs (d, hit)

/-- The display and the collision of a draw of `n` bytes at I; the collision starts at 0 (R150, R153). -/
def State.drawn (s : State) (x y : Reg) (n : Nibble) : Screen × Bool :=
  drawRows (s.startColumn x) (s.startRow y) (s.mem.getMany s.addressI n.toNat) (s.disp, false)

/-- DXYN DRW Vx, Vy, n (R150): the coordinates are read before VF is written (D12), all n addresses are checked
before any write (D13), VF is always written (R154). -/
def execDrw (x y : Reg) (n : Nibble) (s : State) : Result :=
  s.withRange s.addressI n.toNat
    ((s.setDisp (s.drawn x y n).1).setReg Reg.vf (flagOf (s.drawn x y n).2)).advance

end Sys2Proof.Machine
end

