-- ==== Sys2Proof/Machine/KeysTimers.lean ====
section
/-! DEFINITION. Key queries, the key wait and the timer instructions (46_keys_timers.md). -/

namespace Sys2Proof.Machine

/-- EX9E SKP Vx (R160). -/
def execSkp (x : Reg) (s : State) : Result := .next (s.skipIf (s.keyDown x))

/-- EXA1 SKNP Vx (R161). -/
def execSknp (x : Reg) (s : State) : Result := .next (s.skipIf (!s.keyDown x))

/-- FX07 LD Vx, DT (R162). -/
def execLdVxDt (x : Reg) (s : State) : Result := .next (s.setReg x s.dt).advance

/-- FX0A LD Vx, K (R163): the first execution arms and keeps pc; with a press observed while armed it completes;
else it waits, changing nothing. -/
def execLdVxK (x : Reg) (s : State) : Result :=
  if !s.armed then .next (s.setWait true false)
  else if s.keyEvent then .next ((s.setReg x (s.latch.setWidth 8)).setWait false false).advance
  else .next s

/-- FX15 LD DT, Vx (R164). -/
def execLdDtVx (x : Reg) (s : State) : Result := .next (s.setDt (s.reg x)).advance

/-- FX18 LD ST, Vx (R165). -/
def execLdStVx (x : Reg) (s : State) : Result := .next (s.setSt (s.reg x)).advance

end Sys2Proof.Machine
end

