-- ==== Sys2Proof/Machine/MemoryOps.lean ====
section
/-! DEFINITION. Glyph address, decimal store and register block transfer (47_memory_ops.md). -/

namespace Sys2Proof.Machine

/-- FX29 LD F, Vx (R170). -/
def execLdF (x : Reg) (s : State) : Result := .next (s.setI (glyphAddress (s.reg x))).advance

/-- FX33 LD B, Vx: three digits at I, I + 1, I + 2; I is not changed (R171). -/
def execLdB (x : Reg) (s : State) : Result :=
  s.withRange s.addressI 3 (s.storeBytes s.addressI (bcdDigits (s.reg x))).advance

/-- FX55 LD [I], Vx: V0..Vx stored at I.. (R172). -/
def execDump (x : Reg) (s : State) : Result :=
  s.withRange s.addressI (x.val + 1)
    ((s.storeBytes s.addressI (s.regsUpTo x)).setI (s.blockEndI x)).advance

/-- FX65 LD Vx, [I]: V0..Vx loaded from I.. (R173). -/
def execLoad (x : Reg) (s : State) : Result :=
  s.withRange s.addressI (x.val + 1)
    ((s.setRegsFrom 0 (s.mem.getMany s.addressI (x.val + 1))).setI (s.blockEndI x)).advance

end Sys2Proof.Machine
end

