-- ==== Sys2Proof/Machine/Cycle.lean ====
section
/-! DEFINITION. The step of 40_cycle.md: the timers, the delay gate, the fetch, the dispatch and the unimplemented
words; and the placing of a word where the next step fetches it. -/

namespace Sys2Proof.Machine

/-- (1) of R91: if ST != 0 then ST <- ST - 1. -/
def State.tickSound (s : State) : State := if s.st = 0#8 then s else s.setSt (s.st - 1#8)

/-- (2) of R91, the delay timer's own decrement. -/
def State.tickDelay (s : State) : State := if s.dt = 0#8 then s else s.setDt (s.dt - 1#8)

/-- Fetch: the two bytes at pc and pc + 1, high byte first; the bounds are checked in this order, without wrap (R93). -/
def State.fetch (s : State) : Except Fault Word :=
  match outOfRange s.pc.toNat 2 with
  | some bad => .error (.memOutOfRange bad)
  | none => .ok (wordOfBytes (s.readByte s.pc.toNat) (s.readByte (s.pc.toNat + 1)))

/-- An unimplemented word: the diagnostic, and pc + 2; nothing else changes (R96). -/
def execUnimplemented (w : Word) (s : State) : Result := .next (s.signalUnimplemented w).advance

/-- Decode and execute (R94, R96). -/
def execWord (w : Word) (s : State) : Result :=
  match decodeWord w with
  | some i => exec i s
  | none => execUnimplemented w s

/-- Fetch and execute exactly one instruction; a fetch that faults halts the core (R93, R181). -/
def executeOne (s : State) : Result :=
  match s.fetch with
  | .ok w => execWord w s
  | .error f => .next (s.raise f)

/-- One call of `step()` (R90 to R92): nothing when halted; else the sound timer, then, with DT = 0, one
instruction, else the delay timer and no instruction. `exec` itself has no gate: DEDUCED (log entry 15): safe. -/
def cycle (s : State) : Result :=
  if s.halted then .next s
  else if s.tickSound.dt = 0#8 then executeOne s.tickSound
  else .next s.tickSound.tickDelay

/-- What a step needs to fetch at all: not halted, DT = 0 (R91, R92), and a pc whose two bytes exist (R93); a pc
without them becomes `ENTRY_PC`. The state after reset meets all of it and is left as it is. DESIGN CHOICE
(log entry 10): safe, no step calls it. -/
def State.readyToFetch (s : State) : State :=
  { s with halted := false, faultCause := none, dt := 0#8,
           pc := if s.pc.toNat + 1 < Config.memSize then s.pc else Config.entryPc }

/-- The bytes stored where the next step fetches its instruction. -/
def State.placeAtPc (s : State) (bs : List Byte) : State :=
  s.readyToFetch.storeBytes s.readyToFetch.pc.toNat bs

end Sys2Proof.Machine
end

