-- ==== Sys2Proof/Machine/Step.lean ====
section
/-! DEFINITION. The step the host runs, and the state in which it runs a given word next. -/

namespace Sys2Proof.Machine

/-- One call of `step()` (40_cycle.md R90). -/
def step : State → Host.Outcome State Fault Refusal := fun s => cycle s

/-- `s` with the instruction word `w` (numbered as spec/opcode_table.json numbers it) where `step` fetches next. -/
def State.withFetchWord (s : State) (nbits w : Nat) : State := s.placeAtPc (bytesOfWord (tableWord nbits w))

end Sys2Proof.Machine
end

