-- ==== Sys2Proof/Machine/Loader.lean ====
section
/-! DEFINITION. Construction, the only reset (20_memory.md R56 to R59, 70_reset_and_hazards.md R200 to R202). -/

namespace Sys2Proof.Machine

/-- The byte at `a` after construction: the parameter `FONT`, the program at `PROG_BASE`, or the launch argument
`INIT_MEM(a)` (R52, R54, R57, R58). The three ranges are disjoint, so the order of R200's steps (2) to (4) does not show. -/
def constructedByte (font : Font) (program : List Byte) (initMem : Nat → Byte) (a : Nat) : Byte :=
  if h : a < fontSize then font[a]
  else if Config.progBase ≤ a ∧ a < Config.progBase + program.length then program.getD (a - Config.progBase) 0#8
  else initMem a

/-- `construct(program, shift_src_vy, loadstore_inc_i)` with the launch argument `INIT_MEM` (R200, R58) and the
parameter `FONT`, whose default is the table of R55: refused where the program is longer than `PROG_MAX` (R56, R184). Every field but memory and the configuration is as in `State.reset`. -/
def State.construct (program : List Byte) (initMem : Nat → Byte) (shiftSrcVy loadstoreIncI : Bool)
    (font : Font := fontBytes) : Host.Outcome State Fault Refusal :=
  if Config.progMax < program.length then .refused (.programTooLarge program.length)
  else .next { State.reset with
    mem := Memory.ofImage (constructedByte font program initMem), cfg := ⟨shiftSrcVy, loadstoreIncI⟩ }

end Sys2Proof.Machine
end

