-- ==== Sys2Proof/Machine/Ports.lean ====
section
/-! DEFINITION. The host's side of a constructed core (10_state.md R44 to R46): its transactions, strictly one after
the other, and the observers, which change nothing. -/

namespace Sys2Proof.Machine

/-- A host transaction on a constructed core (R44). A key number is 4 bits, so a larger one cannot be presented
(R46, R185). DEDUCED (log entry 9): safe. -/
inductive Transaction where
  | step
  | press (k : Nibble)
  | release (k : Nibble)
deriving DecidableEq, Repr

/-- One transaction, atomic (R44, R46). On a halted core `press` and `release` still update the keypad (R92). -/
def transact (s : State) : Transaction → Result
  | .step => step s
  | .press k => .next (s.press k)
  | .release k => .next (s.release k)

/-- A sequence of transactions: the only ordering the core has (R46, R212). -/
def runTransactions (s : State) : List Transaction → Result
  | [] => .next s
  | t :: ts =>
    match transact s t with
    | .next s' => runTransactions s' ts
    | .fault f => .fault f
    | .refused r => .refused r

/-- The 8 bytes of a display row, the most significant bit of each its leftmost pixel (R32). -/
def rowBytes (row : BitVec 64) : List Byte := (List.range 8).map (fun k => row.extractLsb' (56 - 8 * k) 8)

/-- `display`: 256 bytes, row 0 first (R32, R45). -/
def State.displayView (s : State) : List Byte := s.disp.toList.flatMap rowBytes

/-- `delay_timer` (R45). -/
def State.delayTimerView (s : State) : Byte := s.dt

/-- `sound_timer` (R45). -/
def State.soundTimerView (s : State) : Byte := s.st

/-- `width`, `height`: 64, 32 (R45). -/
def screenSizeView : Nat × Nat := (Config.width, Config.height)

/-- `fault`: Halted and FaultCause (R44, R181). -/
def State.faultView (s : State) : Bool × Option Fault := (s.halted, s.faultCause)

/-- The code of a cause (60_exceptions.md R182). -/
def Fault.code : Fault → Nat
  | .memOutOfRange _ => 1
  | .stackUnderflow _ => 2
  | .stackOverflow _ => 3

/-- `diag`: the words emitted so far, oldest first (R44, R183). -/
def State.diagView (s : State) : List Word := s.diag.reverse

end Sys2Proof.Machine
end

