-- ==== Sys2Proof/Safety.lean ====
section
/-! DEFINITION. What counts as a safe state, and the terms the statements are written in. -/

namespace Sys2Proof.Machine

/-- A recorded cause agrees with the state it was recorded in: an address that does not exist and that 16 bits hold
(60_exceptions.md R182: the lowest such address), an empty stack and this pc (R101, R181); no overflow, since the
stack has no limit here (R104). -/
def Fault.agrees (s : State) : Fault → Prop
  | .memOutOfRange a => Config.memSize ≤ a ∧ a ≤ 0xFFFF
  | .stackUnderflow pc => s.stack = [] ∧ pc = s.pc
  | .stackOverflow _ => False

/-- The invariant every step keeps. -/
structure State.Inv (s : State) : Prop where
  /-- Memory is in its canonical form: only existing addresses are listed (20_memory.md R50). -/
  memory : s.mem.wf = true
  /-- "every jump target is at most 0xFFF + 0xFF = 0x10FE" (10_state.md R27). -/
  pcBound : s.pc.toNat ≤ 0x10FE
  /-- "every pushed return address is such a pc", at most 0xFFE (10_state.md R27). -/
  stackBound : ∀ a ∈ s.stack, a.toNat ≤ 0xFFE
  /-- A cause is recorded exactly when the core is halted (10_state.md R43). -/
  haltAgrees : s.halted = s.faultCause.isSome
  /-- The recorded cause agrees with the state (60_exceptions.md R182). -/
  causeAgrees : ∀ f, s.faultCause = some f → f.agrees s
  /-- A key event is held only while armed (10_state.md R38). -/
  eventArmed : s.keyEvent = true → s.armed = true

/-- Every byte of memory reads as before. -/
def SameMemory (s t : State) : Prop := ∀ a, t.readByte a = s.readByte a

/-- Every byte outside `a`, ..., `a + n - 1` reads as before. -/
def SameMemoryOutside (a n : Nat) (s t : State) : Prop := ∀ b, b < a ∨ a + n ≤ b → t.readByte b = s.readByte b

/-- A word of the form op, nnn, by arithmetic on its fields (30_encoding.md R71). -/
def wordNNN (op : Nat) (nnn : Addr12) : Word := BitVec.ofNat 16 (op * 0x1000 + nnn.toNat)

/-- A word of the form op, x, nn (R71). -/
def wordXNN (op : Nat) (x : Reg) (nn : Nat) : Word := BitVec.ofNat 16 (op * 0x1000 + x.val * 0x100 + nn)

/-- A word of the form op, x, y, n (R71). -/
def wordXYN (op : Nat) (x y : Reg) (n : Nat) : Word :=
  BitVec.ofNat 16 (op * 0x1000 + x.val * 0x100 + y.val * 0x10 + n)

/-- The sprite of `DRW Vx, Vy, n` has a 1 at column `px`, row `py` of the display (45_display.md R150, R151, R152):
the pixel lies in the 8 columns from V[x] mod 64 and the n rows from V[y] mod 32, and the bit of its row's byte,
bit 7 leftmost, is 1. -/
def State.spriteAt (s : State) (x y : Reg) (n : Nibble) (px py : Nat) : Bool :=
  decide ((s.reg x).toNat % 64 ≤ px) && decide (px < (s.reg x).toNat % 64 + 8) &&
  decide ((s.reg y).toNat % 32 ≤ py) && decide (py < (s.reg y).toNat % 32 + n.toNat) &&
  (s.readByte (s.i.toNat + (py - (s.reg y).toNat % 32))).getLsbD (7 - (px - (s.reg x).toNat % 64))

/-- `Disp(px, py)` of a state (00_scope.md R11). -/
def State.pixel (s : State) (px py : Nat) : Bool := s.disp.pixel px py

end Sys2Proof.Machine

namespace Sys2Proof

/-- The registers an instruction may write (10_state.md R21, R22): Vx for the loads and the ALU, VF for the
flag-defining operations, V0..Vx for FX65, none for the others. -/
def Instr.writesReg : Instr → Reg → Bool
  | .ldImm x _, r | .addImm x _, r | .ldReg x _, r | .orReg x _, r | .andReg x _, r | .xorReg x _, r
  | .rnd x _, r | .ldVxDt x, r | .ldVxK x, r => r == x
  | .addReg x _, r | .subReg x _, r | .shr x _, r | .subnReg x _, r | .shl x _, r => r == x || r == Reg.vf
  | .drw _ _ _, r => r == Reg.vf
  | .load x, r => decide (r.val ≤ x.val)
  | .cls, _ | .ret, _ | .sys _, _ | .jp _, _ | .call _, _ | .seImm _ _, _ | .sneImm _ _, _ | .seReg _ _, _
  | .sneReg _ _, _ | .ldI _, _ | .jpV0 _, _ | .skp _, _ | .sknp _, _ | .ldDtVx _, _ | .ldStVx _, _ | .addI _, _
  | .ldF _, _ | .ldB _, _ | .dump _, _ => false

/-- The addresses an instruction may store to: I..I+2 for FX33, I..I+x for FX55, none for the others
(20_memory.md R51, R63). -/
def Instr.storesAt (s : Machine.State) : Instr → Nat → Bool
  | .ldB _, a => decide (s.i.toNat ≤ a) && decide (a < s.i.toNat + 3)
  | .dump x, a => decide (s.i.toNat ≤ a) && decide (a < s.i.toNat + (x.val + 1))
  | .cls, _ | .ret, _ | .sys _, _ | .jp _, _ | .call _, _ | .seImm _ _, _ | .sneImm _ _, _ | .seReg _ _, _
  | .ldImm _ _, _ | .addImm _ _, _ | .ldReg _ _, _ | .orReg _ _, _ | .andReg _ _, _ | .xorReg _ _, _
  | .addReg _ _, _ | .subReg _ _, _ | .shr _ _, _ | .subnReg _ _, _ | .shl _ _, _ | .sneReg _ _, _ | .ldI _, _
  | .jpV0 _, _ | .rnd _ _, _ | .drw _ _ _, _ | .skp _, _ | .sknp _, _ | .ldVxDt _, _ | .ldVxK _, _ | .ldDtVx _, _
  | .ldStVx _, _ | .addI _, _ | .ldF _, _ | .load _, _ => false

/-- The bytes an instruction accesses at I (20_memory.md R63): n for DXYN, 3 for FX33, x + 1 for FX55 and FX65. -/
def Instr.accessWidth : Instr → Nat
  | .drw _ _ n => n.toNat
  | .ldB _ => 3
  | .dump x | .load x => x.val + 1
  | .cls | .ret | .sys _ | .jp _ | .call _ | .seImm _ _ | .sneImm _ _ | .seReg _ _ | .ldImm _ _ | .addImm _ _
  | .ldReg _ _ | .orReg _ _ | .andReg _ _ | .xorReg _ _ | .addReg _ _ | .subReg _ _ | .shr _ _ | .subnReg _ _
  | .shl _ _ | .sneReg _ _ | .ldI _ | .jpV0 _ | .rnd _ _ | .skp _ | .sknp _ | .ldVxDt _ | .ldVxK _
  | .ldDtVx _ | .ldStVx _ | .addI _ | .ldF _ => 0

end Sys2Proof

namespace Sys2Proof.Machine

/-- The next step of `s` executes the instruction `i`: the core is not halted, DT is 0, and the two bytes at pc exist
and are the word of `i`, high byte first (40_cycle.md R91 to R94, 20_memory.md R60). -/
def State.RunsNext (s : State) (i : Instr) : Prop :=
  s.halted = false ∧ s.dt = 0#8 ∧ s.pc.toNat + 1 < 4096 ∧
  decodeWord (s.readByte s.pc.toNat ++ s.readByte (s.pc.toNat + 1)) = some i

/-- The sound timer after (1) of the step: one less, or still 0 (R91). -/
def State.stAfter (s : State) : Byte := BitVec.ofNat 8 (s.st.toNat - 1)

end Sys2Proof.Machine
end

