-- ==== Sys2Proof/Certificates/Slice0/Obligations.lean ====
section
/-! DEFINITION. The statements for the provers, in the order of OBLIGATIONS.json. Each says what an instruction or the
machine does by the numbered rules of spec/. A statement `t = { s with f := t.f, ... }` is a frame: every other field,
and with it every other register, every byte of memory and every flag, is as before. -/

open Sys2Proof Sys2Proof.Machine

/-! ## Encoding -/

/-- Decode and encode agree: the word, and the bytes with anything after them, of every well-formed instruction decode
to it, every operand at every value (30_encoding.md R71, R73, R78). -/
def Obligations.DecodeOfEncodeIsIdentity : Prop :=
  ∀ i : Instr, WellFormed i →
    decodeWord (encode i) = some i ∧ ∀ rest, decode (encodeBytes i ++ rest) = .ok (i, rest)

/-- Each word has one meaning: a word that decodes to an instruction is that instruction's word, so no bit of it is
dropped, and the instruction is well-formed (30_encoding.md R73, R74, R78). -/
def Obligations.DecodedWordReencodes : Prop :=
  ∀ (w : Word) (i : Instr), decodeWord w = some i → WellFormed i ∧ encode i = w

/-- Words written out from R78's patterns, one or more of each family, decode to the instruction they stand for. -/
def Obligations.PatternWordsDecode : Prop :=
  decodeWord 0x00E0#16 = some .cls ∧ decodeWord 0x00EE#16 = some .ret ∧
  decodeWord 0x0123#16 = some (.sys 0x123#12) ∧ decodeWord 0x2ABC#16 = some (.call 0xABC#12) ∧
  decodeWord 0x3142#16 = some (.seImm 1 0x42#8) ∧ decodeWord 0x9120#16 = some (.sneReg 1 2) ∧
  decodeWord 0x812E#16 = some (.shl 1 2) ∧ decodeWord 0xC30F#16 = some (.rnd 3 0x0F#8) ∧
  decodeWord 0xDAB5#16 = some (.drw 10 11 5#4) ∧ decodeWord 0xE1A1#16 = some (.sknp 1) ∧
  decodeWord 0xF30A#16 = some (.ldVxK 3) ∧ decodeWord 0xFA33#16 = some (.ldB 10) ∧ decodeWord 0x8008#16 = none

/-- "`0x00E0` and `0x00EE` decode as CLS and RET, never as SYS" (30_encoding.md R74): and every other word of the
0x0NNN family is SYS. -/
def Obligations.ExactWordsBeforeSys : Prop :=
  decodeWord 0x00E0#16 = some .cls ∧ decodeWord 0x00EE#16 = some .ret ∧
  ∀ (w : Word) (nnn : Addr12),
    decodeWord w = some (.sys nnn) ↔ w.toNat = nnn.toNat ∧ w ≠ 0x00E0#16 ∧ w ≠ 0x00EE#16

/-- The unimplemented words are exactly those of R80's table, under either value of `DECODE_59_MASK`. -/
def Obligations.UnimplementedWordsExactly : Prop :=
  ∀ w : Word,
    (decodeWith 0xF000#16 w = none ↔
      (w.toNat / 0x1000 = 8 ∧ w.toNat % 16 ∈ [8, 9, 10, 11, 12, 13, 15]) ∨
      (w.toNat / 0x1000 = 14 ∧ w.toNat % 256 ∉ [0x9E, 0xA1]) ∨
      (w.toNat / 0x1000 = 15 ∧
        w.toNat % 256 ∉ [0x07, 0x0A, 0x15, 0x18, 0x1E, 0x29, 0x33, 0x55, 0x65])) ∧
    (decodeWord w = none ↔
      decodeWith 0xF000#16 w = none ∨
      ((w.toNat / 0x1000 = 5 ∨ w.toNat / 0x1000 = 9) ∧ w.toNat % 16 ≠ 0))

/-! ## Control flow -/

/-- 00E0, this word exactly (R100): every pixel 0, pc + 2, nothing else. -/
def Obligations.ClsResult : Prop :=
  (∀ w : Word, decodeWord w = some .cls ↔ w = 0x00E0#16) ∧
  ∀ s : State, ∃ t, exec .cls s = Host.Outcome.next t ∧
    t = { s with disp := t.disp, pc := t.pc } ∧ t.pc.toNat = (s.pc.toNat + 2) % 0x10000 ∧
    ∀ px py, px < 64 → py < 32 → t.pixel px py = false

/-- 00EE, this word exactly (R101): with an empty stack `StackUnderflow(pc)` (the spec's decision D8), changing
nothing but the halt and its cause; else the last pushed entry is removed and pc is that entry + 2, mod 2^16. -/
def Obligations.RetResult : Prop :=
  (∀ w : Word, decodeWord w = some .ret ↔ w = 0x00EE#16) ∧
  (∀ s : State, s.stack = [] → exec .ret s = Host.Outcome.next
    { s with halted := true, faultCause := some (.stackUnderflow s.pc) }) ∧
  ∀ (s : State) (a : Word) (rest : List Word), s.stack = a :: rest → ∃ t,
    exec .ret s = Host.Outcome.next t ∧ t = { s with stack := rest, pc := t.pc } ∧
    t.pc.toNat = (a.toNat + 2) % 0x10000

/-- 0NNN but 00E0 and 00EE (R102): pc + 2 and no other effect; no diagnostic (the spec's decision D22). -/
def Obligations.SysResult : Prop :=
  (∀ nnn : Addr12, nnn ≠ 0x0E0#12 → nnn ≠ 0x0EE#12 → decodeWord (wordNNN 0x0 nnn) = some (.sys nnn)) ∧
  ∀ (nnn : Addr12) (s : State), ∃ t, exec (.sys nnn) s = Host.Outcome.next t ∧
    t = { s with pc := t.pc } ∧ t.pc.toNat = (s.pc.toNat + 2) % 0x10000

/-- 1NNN (R103): pc is nnn, odd or even, and nothing else changes. -/
def Obligations.JpResult : Prop :=
  ∀ (nnn : Addr12) (s : State), decodeWord (wordNNN 0x1 nnn) = some (.jp nnn) ∧
    ∃ t, exec (.jp nnn) s = Host.Outcome.next t ∧ t = { s with pc := t.pc } ∧ t.pc.toNat = nnn.toNat

/-- 2NNN (R104): this instruction's address is pushed and pc is nnn; no fault with the unbounded stack, and
`StackOverflow(pc)`, changing nothing but the halt and its cause, where a `STACK_LIMIT` d is set and the stack holds d
entries (the spec's decision D9). -/
def Obligations.CallResult : Prop :=
  ∀ (nnn : Addr12) (s : State), decodeWord (wordNNN 0x2 nnn) = some (.call nnn) ∧
    (∃ t, exec (.call nnn) s = Host.Outcome.next t ∧
      t = { s with stack := s.pc :: s.stack, pc := t.pc } ∧ t.pc.toNat = nnn.toNat) ∧
    ∀ d : Nat,
      (s.stack.length = d → callWith (some d) nnn s = Host.Outcome.next
        { s with halted := true, faultCause := some (.stackOverflow s.pc) }) ∧
      (s.stack.length < d → callWith (some d) nnn s = exec (.call nnn) s)

/-- BNNN (R105): pc is nnn + V0, a sum that does not wrap and is not reduced to 12 bits (the spec's decision D16). -/
def Obligations.JpV0Result : Prop :=
  ∀ (nnn : Addr12) (s : State), decodeWord (wordNNN 0xB nnn) = some (.jpV0 nnn) ∧
    ∃ t, exec (.jpV0 nnn) s = Host.Outcome.next t ∧ t = { s with pc := t.pc } ∧
      t.pc.toNat = nnn.toNat + (s.reg 0).toNat

/-- A RET that finds the stack a CALL left returns to the instruction after the CALL, and leaves the stack as it was
before the CALL (R101, R104; 90_conflicts.md C9). -/
def Obligations.CallThenRetReturns : Prop :=
  ∀ (nnn : Addr12) (s : State), ∃ t, exec (.call nnn) s = Host.Outcome.next t ∧
    ∀ u : State, u.stack = t.stack → ∃ w, exec .ret u = Host.Outcome.next w ∧
      w.stack = s.stack ∧ w.pc.toNat = (s.pc.toNat + 2) % 0x10000

/-! ## Skips -/

/-- 3XNN and 4XNN (R110, R111): pc + 4 where the condition holds, else pc + 2, and nothing else. -/
def Obligations.SkipImmediateResult : Prop :=
  ∀ (x : Reg) (nn : Byte) (s : State),
    decodeWord (wordXNN 0x3 x nn.toNat) = some (.seImm x nn) ∧
    decodeWord (wordXNN 0x4 x nn.toNat) = some (.sneImm x nn) ∧
    (∃ t, exec (.seImm x nn) s = Host.Outcome.next t ∧ t = { s with pc := t.pc } ∧
      t.pc.toNat = (s.pc.toNat + if (s.reg x).toNat = nn.toNat then 4 else 2) % 0x10000) ∧
    ∃ t, exec (.sneImm x nn) s = Host.Outcome.next t ∧ t = { s with pc := t.pc } ∧
      t.pc.toNat = (s.pc.toNat + if (s.reg x).toNat = nn.toNat then 2 else 4) % 0x10000

/-- 5XY0 and 9XY0 (R112, R113): pc + 4 where the condition holds, else pc + 2, and nothing else; with the default mask
(the spec's decision D10) 5XYn and 9XYn with n not 0 are unimplemented. -/
def Obligations.SkipRegisterResult : Prop :=
  ∀ (x y : Reg) (s : State),
    decodeWord (wordXYN 0x5 x y 0) = some (.seReg x y) ∧ decodeWord (wordXYN 0x9 x y 0) = some (.sneReg x y) ∧
    (∀ n, 0 < n → n < 16 → decodeWord (wordXYN 0x5 x y n) = none ∧ decodeWord (wordXYN 0x9 x y n) = none) ∧
    (∃ t, exec (.seReg x y) s = Host.Outcome.next t ∧ t = { s with pc := t.pc } ∧
      t.pc.toNat = (s.pc.toNat + if (s.reg x).toNat = (s.reg y).toNat then 4 else 2) % 0x10000) ∧
    ∃ t, exec (.sneReg x y) s = Host.Outcome.next t ∧ t = { s with pc := t.pc } ∧
      t.pc.toNat = (s.pc.toNat + if (s.reg x).toNat = (s.reg y).toNat then 2 else 4) % 0x10000

/-! ## Immediate loads and the ALU -/

/-- 6XNN and 7XNN (R120, R121): V[x] is nn, or the wrapped sum with no flag; every other register as before. -/
def Obligations.ImmediateResult : Prop :=
  ∀ (x : Reg) (nn : Byte) (s : State),
    decodeWord (wordXNN 0x6 x nn.toNat) = some (.ldImm x nn) ∧
    decodeWord (wordXNN 0x7 x nn.toNat) = some (.addImm x nn) ∧
    (∃ t, exec (.ldImm x nn) s = Host.Outcome.next t ∧ t = { s with v := t.v, pc := t.pc } ∧
      t.pc.toNat = (s.pc.toNat + 2) % 0x10000 ∧ ∀ r, t.reg r = if r = x then nn else s.reg r) ∧
    ∃ t, exec (.addImm x nn) s = Host.Outcome.next t ∧ t = { s with v := t.v, pc := t.pc } ∧
      t.pc.toNat = (s.pc.toNat + 2) % 0x10000 ∧
      ∀ r, (t.reg r).toNat = if r = x then ((s.reg x).toNat + nn.toNat) % 256 else (s.reg r).toNat

/-- 8XY0 to 8XY3 (R122 to R125): the copy and the three bitwise operations into V[x], bit by bit; no flag, every other
register as before. -/
def Obligations.CopyAndLogicResult : Prop :=
  ∀ (x y : Reg) (s : State),
    (decodeWord (wordXYN 0x8 x y 0x0) = some (.ldReg x y) ∧
      ∃ t, exec (.ldReg x y) s = Host.Outcome.next t ∧ t = { s with v := t.v, pc := t.pc } ∧
        t.pc.toNat = (s.pc.toNat + 2) % 0x10000 ∧
        ∀ r, t.reg r = if r = x then s.reg y else s.reg r) ∧
    (decodeWord (wordXYN 0x8 x y 0x1) = some (.orReg x y) ∧
      ∃ t, exec (.orReg x y) s = Host.Outcome.next t ∧ t = { s with v := t.v, pc := t.pc } ∧
        t.pc.toNat = (s.pc.toNat + 2) % 0x10000 ∧ ∀ r k, (t.reg r).getLsbD k =
          if r = x then (s.reg x).getLsbD k || (s.reg y).getLsbD k else (s.reg r).getLsbD k) ∧
    (decodeWord (wordXYN 0x8 x y 0x2) = some (.andReg x y) ∧
      ∃ t, exec (.andReg x y) s = Host.Outcome.next t ∧ t = { s with v := t.v, pc := t.pc } ∧
        t.pc.toNat = (s.pc.toNat + 2) % 0x10000 ∧ ∀ r k, (t.reg r).getLsbD k =
          if r = x then (s.reg x).getLsbD k && (s.reg y).getLsbD k else (s.reg r).getLsbD k) ∧
    (decodeWord (wordXYN 0x8 x y 0x3) = some (.xorReg x y) ∧
      ∃ t, exec (.xorReg x y) s = Host.Outcome.next t ∧ t = { s with v := t.v, pc := t.pc } ∧
        t.pc.toNat = (s.pc.toNat + 2) % 0x10000 ∧ ∀ r k, (t.reg r).getLsbD k =
          if r = x then (s.reg x).getLsbD k ^^ (s.reg y).getLsbD k else (s.reg r).getLsbD k)

/-- 8XY4 (R126): the low 8 bits of the sum into V[x], the carry into VF, the flag last. -/
def Obligations.AddResult : Prop :=
  ∀ (x y : Reg) (s : State), decodeWord (wordXYN 0x8 x y 0x4) = some (.addReg x y) ∧
    ∃ t, exec (.addReg x y) s = Host.Outcome.next t ∧ t = { s with v := t.v, pc := t.pc } ∧
      t.pc.toNat = (s.pc.toNat + 2) % 0x10000 ∧ ∀ r, (t.reg r).toNat =
        if r = 15 then (if (s.reg x).toNat + (s.reg y).toNat > 255 then 1 else 0)
        else if r = x then ((s.reg x).toNat + (s.reg y).toNat) % 256 else (s.reg r).toNat

/-- 8XY5 (R127): V[x] - V[y] mod 256 into V[x], not-borrow into VF, the flag last. -/
def Obligations.SubResult : Prop :=
  ∀ (x y : Reg) (s : State), decodeWord (wordXYN 0x8 x y 0x5) = some (.subReg x y) ∧
    ∃ t, exec (.subReg x y) s = Host.Outcome.next t ∧ t = { s with v := t.v, pc := t.pc } ∧
      t.pc.toNat = (s.pc.toNat + 2) % 0x10000 ∧ ∀ r, (t.reg r).toNat =
        if r = 15 then (if (s.reg x).toNat < (s.reg y).toNat then 0 else 1)
        else if r = x then (256 + (s.reg x).toNat - (s.reg y).toNat) % 256 else (s.reg r).toNat

/-- 8XY7 (R129): V[y] - V[x] mod 256 into V[x], not-borrow into VF, the flag last. -/
def Obligations.SubnResult : Prop :=
  ∀ (x y : Reg) (s : State), decodeWord (wordXYN 0x8 x y 0x7) = some (.subnReg x y) ∧
    ∃ t, exec (.subnReg x y) s = Host.Outcome.next t ∧ t = { s with v := t.v, pc := t.pc } ∧
      t.pc.toNat = (s.pc.toNat + 2) % 0x10000 ∧ ∀ r, (t.reg r).toNat =
        if r = 15 then (if (s.reg y).toNat < (s.reg x).toNat then 0 else 1)
        else if r = x then (256 + (s.reg y).toNat - (s.reg x).toNat) % 256 else (s.reg r).toNat

/-- 8XY6 (R128): the source (V[y] where `SHIFT_SRC_VY`, else V[x]) shifted right by one into V[x], its old LSB into VF,
the flag last; no other register is written, V[y] among them. -/
def Obligations.ShrResult : Prop :=
  ∀ (x y : Reg) (s : State), decodeWord (wordXYN 0x8 x y 0x6) = some (.shr x y) ∧
    ∃ t, exec (.shr x y) s = Host.Outcome.next t ∧ t = { s with v := t.v, pc := t.pc } ∧
      t.pc.toNat = (s.pc.toNat + 2) % 0x10000 ∧ ∀ r, (t.reg r).toNat =
        if r = 15 then (s.reg (if s.cfg.shiftSrcVy then y else x)).toNat % 2
        else if r = x then (s.reg (if s.cfg.shiftSrcVy then y else x)).toNat / 2 else (s.reg r).toNat

/-- 8XYE (R130): the source shifted left by one, mod 256, into V[x], its old MSB into VF, the flag last; no other
register is written. -/
def Obligations.ShlResult : Prop :=
  ∀ (x y : Reg) (s : State), decodeWord (wordXYN 0x8 x y 0xE) = some (.shl x y) ∧
    ∃ t, exec (.shl x y) s = Host.Outcome.next t ∧ t = { s with v := t.v, pc := t.pc } ∧
      t.pc.toNat = (s.pc.toNat + 2) % 0x10000 ∧ ∀ r, (t.reg r).toNat =
        if r = 15 then (s.reg (if s.cfg.shiftSrcVy then y else x)).toNat / 128
        else if r = x then (s.reg (if s.cfg.shiftSrcVy then y else x)).toNat * 2 % 256 else (s.reg r).toNat

/-! ## Address register and random -/

/-- ANNN and FX1E (R140, R141): I is nnn, or (I + V[x]) mod 2^16 with no flag. -/
def Obligations.AddressRegisterResult : Prop :=
  (∀ (nnn : Addr12) (s : State), decodeWord (wordNNN 0xA nnn) = some (.ldI nnn) ∧
    ∃ t, exec (.ldI nnn) s = Host.Outcome.next t ∧ t = { s with i := t.i, pc := t.pc } ∧
      t.pc.toNat = (s.pc.toNat + 2) % 0x10000 ∧ t.i.toNat = nnn.toNat) ∧
  ∀ (x : Reg) (s : State), decodeWord (wordXNN 0xF x 0x1E) = some (.addI x) ∧
    ∃ t, exec (.addI x) s = Host.Outcome.next t ∧ t = { s with i := t.i, pc := t.pc } ∧
      t.pc.toNat = (s.pc.toNat + 2) % 0x10000 ∧ t.i.toNat = (s.i.toNat + (s.reg x).toNat) % 0x10000

/-- CXNN (R142): some byte is drawn, and V[x] is that byte under the mask, bit by bit; every other register and all
state of the spec besides V[x] and pc is as before. `draws` is the model's own count of draws (log entry 3); the byte is
under no law (the spec's decision D21). -/
def Obligations.RndResult : Prop :=
  ∀ (x : Reg) (nn : Byte) (s : State), decodeWord (wordXNN 0xC x nn.toNat) = some (.rnd x nn) ∧
    ∃ (drawn : Byte) (t : State), exec (.rnd x nn) s = Host.Outcome.next t ∧
      t = { s with v := t.v, pc := t.pc, draws := t.draws } ∧ t.pc.toNat = (s.pc.toNat + 2) % 0x10000 ∧
      ∀ r k, (t.reg r).getLsbD k =
        if r = x then drawn.getLsbD k && nn.getLsbD k else (s.reg r).getLsbD k

/-- The model's own reading of the draw (log entry 3, a free value): the byte of the n-th draw is
`Config.randByte n`, of which nothing is known, and every executed CXNN takes a new one. -/
def Obligations.RndTakesNewDraw : Prop :=
  ∀ (x : Reg) (s : State), ∃ t, exec (.rnd x 0xFF#8) s = Host.Outcome.next t ∧
    t.reg x = Config.randByte s.draws ∧ t.draws = s.draws + 1 ∧
    ∀ (y : Reg) (nn : Byte), ∃ u, exec (.rnd y nn) t = Host.Outcome.next u ∧
      u.reg y = Config.randByte (s.draws + 1) &&& nn

/-! ## Draw -/

/-- DXYN (R150, R152; the spec's decisions D2, D12, D13, D15): with its n bytes inside memory, every pixel is XORed
with the sprite, VF is 1 exactly if some pixel of the display was set and is hit, and nothing else changes; else
`MemOutOfRange` of the lowest missing address, before any change. -/
def Obligations.DrwResult : Prop :=
  ∀ (x y : Reg) (n : Nibble) (s : State), decodeWord (wordXYN 0xD x y n.toNat) = some (.drw x y n) ∧
    (n.toNat = 0 ∨ s.i.toNat + n.toNat ≤ 4096 → ∃ t, exec (.drw x y n) s = Host.Outcome.next t ∧
      t = { s with disp := t.disp, v := t.v, pc := t.pc } ∧ t.pc.toNat = (s.pc.toNat + 2) % 0x10000 ∧
      (∀ px py, px < 64 → py < 32 → t.pixel px py = (s.pixel px py ^^ s.spriteAt x y n px py)) ∧
      (∀ r, r ≠ 15 → t.reg r = s.reg r) ∧ (t.reg 15 = 0#8 ∨ t.reg 15 = 1#8) ∧
      (t.reg 15 = 1#8 ↔ ∃ px py, px < 64 ∧ py < 32 ∧ s.pixel px py = true ∧ s.spriteAt x y n px py = true)) ∧
    (0 < n.toNat → 4096 < s.i.toNat + n.toNat → exec (.drw x y n) s = Host.Outcome.next
      { s with halted := true, faultCause := some (.memOutOfRange (max s.i.toNat 4096)) })

/-- Collision (R153): VF is 1 exactly if some pixel goes from set to unset; and drawing the same sprite twice gives back
the display before, the second draw reporting 1, from a clear display, exactly if the sprite has a 1 inside the display.
The position is the same both times, so the coordinates are not read from VF. -/
def Obligations.DrawTwiceCollides : Prop :=
  ∀ (x y : Reg) (n : Nibble) (s : State), n.toNat = 0 ∨ s.i.toNat + n.toNat ≤ 4096 →
    ∃ t, exec (.drw x y n) s = Host.Outcome.next t ∧
      (t.reg 15 = 0#8 ∨ t.reg 15 = 1#8) ∧
      (t.reg 15 = 1#8 ↔ ∃ px py, px < 64 ∧ py < 32 ∧ s.pixel px py = true ∧ t.pixel px py = false) ∧
      (x ≠ 15 → y ≠ 15 → ∃ u, exec (.drw x y n) t = Host.Outcome.next u ∧
        (∀ px py, px < 64 → py < 32 → u.pixel px py = s.pixel px py) ∧
        ((∀ px py, px < 64 → py < 32 → s.pixel px py = false) →
          (u.reg 15 = 1#8 ↔ ∃ px py, px < 64 ∧ py < 32 ∧ s.spriteAt x y n px py = true)))

/-- "The display is changed by no other instruction" than DXYN and 00E0, and DXYN that does not fault changes nothing
besides the display, VF and pc (R155). -/
def Obligations.DisplayChangesOnlyByDrawAndClear : Prop :=
  (∀ (i : Instr) (s t : State), exec i s = Host.Outcome.next t → t.disp ≠ s.disp →
    i = .cls ∨ ∃ x y n, i = .drw x y n) ∧
  ∀ (x y : Reg) (n : Nibble) (s t : State), exec (.drw x y n) s = Host.Outcome.next t → s.halted = false →
    t.halted = false → ∃ f, t = { s with disp := t.disp, v := s.v.set 15 f, pc := t.pc }

/-! ## Keys and timers -/

/-- EX9E and EXA1 (R160, R161): the key numbered by V[x] is down exactly if V[x] is at most 15 and its flag is set;
SKP skips if it is down, SKNP if it is not. -/
def Obligations.KeySkipResult : Prop :=
  ∀ (x : Reg) (s : State),
    decodeWord (wordXNN 0xE x 0x9E) = some (.skp x) ∧ decodeWord (wordXNN 0xE x 0xA1) = some (.sknp x) ∧
    (∃ t, exec (.skp x) s = Host.Outcome.next t ∧ t = { s with pc := t.pc } ∧ t.pc.toNat =
      (s.pc.toNat + if s.keys[(s.reg x).toNat]? = some true then 4 else 2) % 0x10000) ∧
    ∃ t, exec (.sknp x) s = Host.Outcome.next t ∧ t = { s with pc := t.pc } ∧ t.pc.toNat =
      (s.pc.toNat + if s.keys[(s.reg x).toNat]? = some true then 2 else 4) % 0x10000

/-- FX07 (R162): V[x] is DT; and since an instruction executes only with DT = 0, a step that runs it leaves V[x] = 0. -/
def Obligations.ReadDelayTimerResult : Prop :=
  ∀ (x : Reg) (s : State), decodeWord (wordXNN 0xF x 0x07) = some (.ldVxDt x) ∧
    (∃ t, exec (.ldVxDt x) s = Host.Outcome.next t ∧ t = { s with v := t.v, pc := t.pc } ∧
      t.pc.toNat = (s.pc.toNat + 2) % 0x10000 ∧ ∀ r, t.reg r = if r = x then s.dt else s.reg r) ∧
    (s.RunsNext (.ldVxDt x) → ∃ t, step s = Host.Outcome.next t ∧ t.reg x = 0#8)

/-- FX15 and FX18 (R164, R165): DT or ST is V[x]. A step that runs FX15 leaves DT = V[x] = d, and the d steps after it
execute nothing and leave DT = 0. A step that runs FX18 leaves ST = V[x], the write being after the step's own
decrement. -/
def Obligations.WriteTimersResult : Prop :=
  ∀ (x : Reg) (s : State),
    decodeWord (wordXNN 0xF x 0x15) = some (.ldDtVx x) ∧ decodeWord (wordXNN 0xF x 0x18) = some (.ldStVx x) ∧
    (∃ t, exec (.ldDtVx x) s = Host.Outcome.next t ∧ t = { s with dt := s.reg x, pc := t.pc } ∧
      t.pc.toNat = (s.pc.toNat + 2) % 0x10000) ∧
    (∃ t, exec (.ldStVx x) s = Host.Outcome.next t ∧ t = { s with st := s.reg x, pc := t.pc } ∧
      t.pc.toNat = (s.pc.toNat + 2) % 0x10000) ∧
    (s.RunsNext (.ldDtVx x) → ∃ t u, step s = Host.Outcome.next t ∧ t.dt = s.reg x ∧
      core.run (s.reg x).toNat t = Host.Outcome.next u ∧ u = { t with dt := 0#8, st := u.st }) ∧
    (s.RunsNext (.ldStVx x) → ∃ t, step s = Host.Outcome.next t ∧ t.st = s.reg x)

/-- FX0A (R163; the spec's decision D7), its three cases: not armed, it arms and keeps pc; armed with a key event,
V[x] is the latch, the wait is over and pc + 2; armed without one, nothing changes. -/
def Obligations.KeyWaitResult : Prop :=
  ∀ (x : Reg) (s : State), decodeWord (wordXNN 0xF x 0x0A) = some (.ldVxK x) ∧
    (s.armed = false → exec (.ldVxK x) s = Host.Outcome.next { s with armed := true, keyEvent := false }) ∧
    (s.armed = true → s.keyEvent = true → ∃ t, exec (.ldVxK x) s = Host.Outcome.next t ∧
      t = { s with v := t.v, armed := false, keyEvent := false, pc := t.pc } ∧
      t.pc.toNat = (s.pc.toNat + 2) % 0x10000 ∧
      ∀ r, (t.reg r).toNat = if r = x then s.latch.toNat else (s.reg r).toNat) ∧
    (s.armed = true → s.keyEvent = false → exec (.ldVxK x) s = Host.Outcome.next s)

/-- "calling `step()` repeatedly with no key press leaves the program counter unchanged and Vx unmodified; the first
step after any key press advances PC by 2 and sets Vx to that key's value" (the example of R163), for a core that is
armed and waits at FX0A; only the sound timer counts on. -/
def Obligations.KeyWaitLastsUntilPress : Prop :=
  ∀ (x : Reg) (s : State) (k : Nibble) (n : Nat), s.RunsNext (.ldVxK x) → s.armed = true → s.keyEvent = false →
    ∃ t, runTransactions s (List.replicate n .step) = Host.Outcome.next t ∧
      t = { s with st := t.st } ∧ t.st.toNat = s.st.toNat - n ∧
      ∃ u, runTransactions t [.press k, .step] = Host.Outcome.next u ∧
        u.pc.toNat = s.pc.toNat + 2 ∧ u.armed = false ∧ u.keyEvent = false ∧
        ∀ r, (u.reg r).toNat = if r = x then k.toNat else (s.reg r).toNat

/-- A key pressed before FX0A arms does not end the wait, held or not (70_reset_and_hazards.md R207, 46_keys_timers.md
R163): however many steps follow with no press, pc and every register stay. -/
def Obligations.EarlyPressDoesNotEndWait : Prop :=
  ∀ (x : Reg) (s : State) (k : Nibble) (n : Nat), s.RunsNext (.ldVxK x) → s.armed = false →
    ∃ t, runTransactions s (.press k :: List.replicate (n + 1) .step) = Host.Outcome.next t ∧
      t = { s.press k with armed := true, keyEvent := false, st := t.st } ∧ t.st.toNat = s.st.toNat - (n + 1)

/-- `press(k)` sets the key flag and the latch, and the key event while armed (R39); `release(k)` clears the key flag
(R40); nothing else changes. -/
def Obligations.PressAndReleaseResult : Prop :=
  ∀ (s : State) (k : Nibble),
    (∃ t, transact s (.press k) = Host.Outcome.next t ∧
      t = { s with keys := t.keys, latch := k, keyEvent := if s.armed = true then true else s.keyEvent } ∧
      ∀ j : Fin 16, t.keys[j] = if j.val = k.toNat then true else s.keys[j]) ∧
    ∃ t, transact s (.release k) = Host.Outcome.next t ∧ t = { s with keys := t.keys } ∧
      ∀ j : Fin 16, t.keys[j] = if j.val = k.toNat then false else s.keys[j]

/-- The timer laws of R166, for every step: neither timer falls by more than 1, but that a step which runs FX18 sets ST
to V[x]; while DT is not 0 pc is unchanged; and only FX15 raises DT and only FX18 raises ST. -/
def Obligations.TimerLaws : Prop :=
  ∀ s t : State, step s = Host.Outcome.next t →
    (s.dt.toNat ≤ t.dt.toNat + 1) ∧
    (s.st.toNat ≤ t.st.toNat + 1 ∨ ∃ x, s.RunsNext (.ldStVx x) ∧ t.st = s.reg x) ∧
    (s.dt ≠ 0#8 → t.pc = s.pc) ∧
    (s.dt.toNat < t.dt.toNat → ∃ x, s.RunsNext (.ldDtVx x) ∧ t.dt = s.reg x) ∧
    (s.st.toNat < t.st.toNat → ∃ x, s.RunsNext (.ldStVx x) ∧ t.st = s.reg x)

/-- The delay coupling (R91, R206): with DT = d, the next n steps, n at most d, execute no instruction; they count DT
down to d - n and ST down as far as 0, and change nothing else. -/
def Obligations.DelayTimerSuspendsExecution : Prop :=
  ∀ (n : Nat) (s : State), s.halted = false → n ≤ s.dt.toNat →
    ∃ t, core.run n s = Host.Outcome.next t ∧ t = { s with dt := t.dt, st := t.st } ∧
      t.dt.toNat = s.dt.toNat - n ∧ t.st.toNat = s.st.toNat - n

/-! ## Memory operations -/

/-- FX29 (R170): I is 5 times the low nibble of V[x]. -/
def Obligations.GlyphAddressResult : Prop :=
  ∀ (x : Reg) (s : State), decodeWord (wordXNN 0xF x 0x29) = some (.ldF x) ∧
    ∃ t, exec (.ldF x) s = Host.Outcome.next t ∧ t = { s with i := t.i, pc := t.pc } ∧
      t.pc.toNat = (s.pc.toNat + 2) % 0x10000 ∧ t.i.toNat = (s.reg x).toNat % 16 * 5

/-- FX33 (R171): the hundreds, tens and units of V[x] at I, I + 1, I + 2, every other byte and all else as before; or
`MemOutOfRange` of the lowest missing address, before any write (the spec's decision D2). -/
def Obligations.BcdResult : Prop :=
  ∀ (x : Reg) (s : State), decodeWord (wordXNN 0xF x 0x33) = some (.ldB x) ∧
    (s.i.toNat + 3 ≤ 4096 → ∃ t, exec (.ldB x) s = Host.Outcome.next t ∧
      t = { s with mem := t.mem, pc := t.pc } ∧ t.pc.toNat = (s.pc.toNat + 2) % 0x10000 ∧
      (t.readByte s.i.toNat).toNat = (s.reg x).toNat / 100 ∧
      (t.readByte (s.i.toNat + 1)).toNat = (s.reg x).toNat / 10 % 10 ∧
      (t.readByte (s.i.toNat + 2)).toNat = (s.reg x).toNat % 10 ∧ SameMemoryOutside s.i.toNat 3 s t) ∧
    (4096 < s.i.toNat + 3 → exec (.ldB x) s = Host.Outcome.next
      { s with halted := true, faultCause := some (.memOutOfRange (max s.i.toNat 4096)) })

/-- FX55 (R172): V[k] at I + k for k up to x, every other byte as before, I advanced by x + 1 mod 2^16 where
`LOADSTORE_INC_I`; or `MemOutOfRange` of the lowest missing address, before any write (the spec's decision D2). -/
def Obligations.RegisterDumpResult : Prop :=
  ∀ (x : Reg) (s : State), decodeWord (wordXNN 0xF x 0x55) = some (.dump x) ∧
    (s.i.toNat + x.val + 1 ≤ 4096 → ∃ t, exec (.dump x) s = Host.Outcome.next t ∧
      t = { s with mem := t.mem, i := t.i, pc := t.pc } ∧ t.pc.toNat = (s.pc.toNat + 2) % 0x10000 ∧
      (∀ k : Reg, k.val ≤ x.val → t.readByte (s.i.toNat + k.val) = s.reg k) ∧
      SameMemoryOutside s.i.toNat (x.val + 1) s t ∧
      t.i.toNat = if s.cfg.loadstoreIncI then (s.i.toNat + x.val + 1) % 0x10000 else s.i.toNat) ∧
    (4096 < s.i.toNat + x.val + 1 → exec (.dump x) s = Host.Outcome.next
      { s with halted := true, faultCause := some (.memOutOfRange (max s.i.toNat 4096)) })

/-- FX65 (R173): V[k] is the byte at I + k for k up to x, the others as before, I advanced by x + 1 mod 2^16 where
`LOADSTORE_INC_I`; or `MemOutOfRange` of the lowest missing address, before any change (the spec's decision D2). -/
def Obligations.RegisterLoadResult : Prop :=
  ∀ (x : Reg) (s : State), decodeWord (wordXNN 0xF x 0x65) = some (.load x) ∧
    (s.i.toNat + x.val + 1 ≤ 4096 → ∃ t, exec (.load x) s = Host.Outcome.next t ∧
      t = { s with v := t.v, i := t.i, pc := t.pc } ∧ t.pc.toNat = (s.pc.toNat + 2) % 0x10000 ∧
      (∀ r : Reg, t.reg r = if r.val ≤ x.val then s.readByte (s.i.toNat + r.val) else s.reg r) ∧
      t.i.toNat = if s.cfg.loadstoreIncI then (s.i.toNat + x.val + 1) % 0x10000 else s.i.toNat) ∧
    (4096 < s.i.toNat + x.val + 1 → exec (.load x) s = Host.Outcome.next
      { s with halted := true, faultCause := some (.memOutOfRange (max s.i.toNat 4096)) })

/-- "dumping V0..Vx to memory at I then loading V0..Vx from the same address restores identical register values,
independent of the address-increment policy flag" (R173), whatever happened to anything but memory in between. -/
def Obligations.DumpThenLoadRestores : Prop :=
  ∀ (x : Reg) (s : State), s.i.toNat + x.val + 1 ≤ 4096 → ∃ t, exec (.dump x) s = Host.Outcome.next t ∧
    ∀ u : State, u.mem = t.mem → u.i = s.i → ∃ w, exec (.load x) u = Host.Outcome.next w ∧
      ∀ r : Reg, r.val ≤ x.val → w.reg r = s.reg r

/-- A byte stored by FX55 is fetched in its new value by the next fetch of its address, with nothing needed between
(20_memory.md R68, 70_reset_and_hazards.md R205). -/
def Obligations.StoreIsSeenByFetch : Prop :=
  ∀ (x k j : Reg) (s : State), s.i.toNat + x.val + 1 ≤ 4096 → j.val = k.val + 1 → j.val ≤ x.val →
    ∃ t, exec (.dump x) s = Host.Outcome.next t ∧
      ∀ u : State, u.mem = t.mem → u.pc.toNat = s.i.toNat + k.val → u.fetch = .ok (s.reg k ++ s.reg j)

/-! ## What every instruction leaves alone -/

/-- No instruction writes a register but those R21 and R22 name for it. -/
def Obligations.OnlyNamedRegistersChange : Prop :=
  ∀ (i : Instr) (s t : State) (r : Reg), exec i s = Host.Outcome.next t → i.writesReg r = false → t.reg r = s.reg r

/-- No instruction stores to memory but FX33 and FX55, and these only to the addresses R63 gives them; an address that
does not exist never changes. -/
def Obligations.OnlyNamedAddressesChange : Prop :=
  ∀ (i : Instr) (s t : State) (a : Nat), exec i s = Host.Outcome.next t →
    i.storesAt s a = false ∨ 4096 ≤ a → t.readByte a = s.readByte a

/-- No step changes the key flags, the latch or the configuration (10_state.md R35, R36, R41), and only a step that
runs FX0A changes the key wait (R37). -/
def Obligations.StepLeavesKeypadAndPolicy : Prop :=
  ∀ s t : State, step s = Host.Outcome.next t →
    t.keys = s.keys ∧ t.latch = s.latch ∧ t.cfg = s.cfg ∧
    ((t.armed = s.armed ∧ t.keyEvent = s.keyEvent) ∨ ∃ x, s.RunsNext (.ldVxK x))

/-! ## The step -/

/-- A step runs the decoded instruction: when the core is not halted, DT is 0 and the two bytes at pc exist and decode
to `i`, the step is `exec i` of the state in which the sound timer has counted, and nothing else is done around it. -/
def Obligations.StepRunsDecodedInstruction : Prop :=
  ∀ (s : State) (i : Instr), s.RunsNext i → step s = exec i { s with st := s.stAfter }

/-- The order of a step (R91): halted, nothing; else ST counts; with DT not 0, DT counts and no instruction executes;
with DT = 0, exactly one instruction is fetched and executed, an unimplemented word as R96 says (its signal is the
word put on the model's own field `diag`, log entry 6: the model's choice, R183 keeping it out of the core's state);
where a byte of it is missing, the fetch halts the core with its cause instead (R93, R181). -/
def Obligations.StepOrder : Prop :=
  ∀ s : State,
    (s.halted = true → step s = Host.Outcome.next s) ∧
    (s.halted = false → s.dt ≠ 0#8 → ∃ t, step s = Host.Outcome.next t ∧
      t = { s with st := t.st, dt := t.dt } ∧ t.st.toNat = s.st.toNat - 1 ∧ t.dt.toNat = s.dt.toNat - 1) ∧
    (s.halted = false → s.dt = 0#8 → s.pc.toNat + 1 < 4096 →
      ∃ w : Word, w.toNat = (s.readByte s.pc.toNat).toNat * 256 + (s.readByte (s.pc.toNat + 1)).toNat ∧
        (∀ i, decodeWord w = some i → step s = exec i { s with st := s.stAfter }) ∧
        (decodeWord w = none → ∃ t, step s = Host.Outcome.next t ∧
          t = { s with st := s.stAfter, pc := t.pc, diag := w :: s.diag } ∧
          t.pc.toNat = (s.pc.toNat + 2) % 0x10000)) ∧
    (s.halted = false → s.dt = 0#8 → 4096 ≤ s.pc.toNat + 1 → step s = Host.Outcome.next { s with
      st := s.stAfter, halted := true, faultCause := some (.memOutOfRange (max s.pc.toNat 4096)) })

/-- Fetch (R93): the byte at pc high, the byte at pc + 1 low; a missing byte gives `MemOutOfRange` of pc, or of
pc + 1 where only that is missing, without wrap (the spec's decision D2). -/
def Obligations.FetchResult : Prop :=
  ∀ s : State,
    (s.pc.toNat + 1 < 4096 → ∃ w : Word, s.fetch = .ok w ∧
      w.toNat = (s.readByte s.pc.toNat).toNat * 256 + (s.readByte (s.pc.toNat + 1)).toNat) ∧
    (4096 ≤ s.pc.toNat → s.fetch = .error (.memOutOfRange s.pc.toNat)) ∧
    (s.pc.toNat + 1 = 4096 → s.fetch = .error (.memOutOfRange (s.pc.toNat + 1)))

/-- A halted core does nothing on any number of steps, whatever the host presses and releases between them; the
keypad alone still follows the keys (R92; the spec's decision D19). -/
def Obligations.HaltIsForever : Prop :=
  ∀ (ts : List Transaction) (s : State), s.halted = true →
    ∃ t, runTransactions s ts = Host.Outcome.next t ∧
      t = { s with keys := t.keys, latch := t.latch, keyEvent := t.keyEvent } ∧
      ∃ u, runTransactions s (ts.filter (fun x => x != .step)) = Host.Outcome.next u ∧ u = t

/-- Every step answers a next state: no encoding traps, no step is refused, and a fault of the spec is a state
(R76, R90, R97, R181), by the model's reading of R181 (log entry 5). -/
def Obligations.StepAlwaysAnswersNext : Prop :=
  ∀ s : State, ∃ t, step s = Host.Outcome.next t

/-! ## Faults -/

/-- A fault changes nothing but `Halted` and `FaultCause`, and in a step the sound timer's own decrement; and no step
clears one (R181; the spec's decision D19). -/
def Obligations.FaultChangesNothingElse : Prop :=
  (∀ (i : Instr) (s t : State), exec i s = Host.Outcome.next t → s.halted = false → t.halted = true →
    ∃ f, t = { s with halted := true, faultCause := some f }) ∧
  (∀ s t : State, step s = Host.Outcome.next t → s.halted = false → t.halted = true →
    ∃ f, t = { s with st := s.stAfter, halted := true, faultCause := some f }) ∧
  ∀ s : State, s.halted = true → step s = Host.Outcome.next s

/-- Which instructions fault, when and with what cause (R182, with the unbounded stack): DXYN, FX33, FX55 and FX65
where an address they would access does not exist, with the lowest such address; 00EE on an empty stack; no other. -/
def Obligations.FaultsExactlyAsListed : Prop :=
  ∀ (i : Instr) (s t : State), s.halted = false → exec i s = Host.Outcome.next t →
    (t.halted = true ↔
      (0 < i.accessWidth ∧ 4096 < s.i.toNat + i.accessWidth) ∨ (i = .ret ∧ s.stack = [])) ∧
    (0 < i.accessWidth → 4096 < s.i.toNat + i.accessWidth →
      t.faultCause = some (.memOutOfRange (max s.i.toNat 4096))) ∧
    (i = .ret → s.stack = [] → t.faultCause = some (.stackUnderflow s.pc))

/-! ## Invariants, reset and the host -/

/-- The invariant holds after reset. -/
def Obligations.ResetMeetsInvariant : Prop := State.reset.Inv

/-- Every step keeps the invariant: memory stays canonical, pc and every pushed address stay in R27's bounds, so that
no pc arithmetic wraps, a cause is recorded exactly when halted and agrees with the state, and a key event is held only
while armed. -/
def Obligations.StepKeepsInvariant : Prop :=
  ∀ s t : State, s.Inv → step s = Host.Outcome.next t → t.Inv

/-- Whatever program is constructed, with whatever `INIT_MEM`, policies and `FONT`, every state that any sequence of host
transactions reaches meets the invariant, and keeps the policies it was constructed with (R27, R41, R46, R200). -/
def Obligations.ConstructedRunsMeetInvariant : Prop :=
  ∀ (program : List Byte) (initMem : Nat → Byte) (shiftSrcVy loadstoreIncI : Bool) (font : Font) (s : State),
    State.construct program initMem shiftSrcVy loadstoreIncI font = Host.Outcome.next s →
    ∀ ts : List Transaction, ∃ t, runTransactions s ts = Host.Outcome.next t ∧ t.Inv ∧
      t.cfg = ⟨shiftSrcVy, loadstoreIncI⟩

/-- Construction is reset (R200, with R52, R56, R57): a program of at most 3216 bytes is accepted; memory holds the
bytes of the parameter `FONT`, glyph k at 5*k, the program from 0x200 and `INIT_MEM` elsewhere, and every other piece of the spec's state has its reset value
(pc, display and key wait by the spec's decisions D3, D5, D6). -/
def Obligations.ConstructResult : Prop :=
  ∀ (program : List Byte) (initMem : Nat → Byte) (shiftSrcVy loadstoreIncI : Bool) (font : Font),
    program.length ≤ 3216 → ∃ s, State.construct program initMem shiftSrcVy loadstoreIncI font = Host.Outcome.next s ∧
      (∀ k r, k < 16 → r < 5 → s.readByte (5 * k + r) = font[5 * k + r]!) ∧
      (∀ k < program.length, s.readByte (0x200 + k) = program[k]!) ∧
      (∀ a < 4096, 0x50 ≤ a → a < 0x200 ∨ 0x200 + program.length ≤ a → s.readByte a = initMem a) ∧
      (∀ r, s.reg r = 0#8) ∧ s.i = 0#16 ∧ s.pc = 0x200#16 ∧ s.stack = [] ∧
      (∀ px py, s.pixel px py = false) ∧ s.dt = 0#8 ∧ s.st = 0#8 ∧ (∀ k : Fin 16, s.keys[k] = false) ∧
      s.latch = 0#4 ∧ s.armed = false ∧ s.keyEvent = false ∧ s.halted = false ∧ s.faultCause = none ∧
      s.cfg = ⟨shiftSrcVy, loadstoreIncI⟩

/-- A program longer than 3216 bytes is refused with its length, and no state exists (R184, R56; the spec's
decision D26). -/
def Obligations.TooLargeProgramIsRefused : Prop :=
  ∀ (program : List Byte) (initMem : Nat → Byte) (shiftSrcVy loadstoreIncI : Bool) (font : Font),
    3216 < program.length ↔ State.construct program initMem shiftSrcVy loadstoreIncI font =
      Host.Outcome.refused (.programTooLarge program.length)

/-- The display view (R32; the spec's decision D14): 256 bytes, pixel (x, y) being bit 7 - x mod 8 of byte y*8 + x div
8. -/
def Obligations.DisplayViewIsPacked : Prop :=
  ∀ s : State, s.displayView.length = 256 ∧
    ∀ px py, px < 64 → py < 32 → (s.displayView[py * 8 + px / 8]!).getLsbD (7 - px % 8) = s.pixel px py

/-- `State.reset` is the core that construction gives for the empty program, with `FONT` left at its default and the
model's choices of `INIT_MEM` = 0x00 (log entry 1) and of the two policies (log entry 4): all 4096 bytes and every other
field agree (20_memory.md R55, R58, 70_reset_and_hazards.md R200). -/
def Obligations.ResetIsDefaultConstruction : Prop :=
  State.construct [] (fun _ => 0#8) Config.resetShiftSrcVy Config.resetLoadstoreIncI = Host.Outcome.next State.reset
end

