-- ==== Sys2Proof/Laws/Decode.lean ====
section
/-! SUPPORT. The laws of the decoder: a word is its high nibble and the rest, the fields of an encoded word are what
was encoded, and only the patterns of a word's high nibble can accept it. -/

namespace Sys2Proof

theorem append_eq_append {m n : Nat} (a c : BitVec m) (b d : BitVec n) :
    (a ++ b = c ++ d) ↔ (a = c ∧ b = d) := by
  constructor
  · intro h
    constructor
    · have := congrArg (fun w => w.extractLsb' n m) h
      simpa [BitVec.extractLsb'_append_eq_left] using this
    · have := congrArg (fun w => w.extractLsb' 0 n) h
      simpa [BitVec.extractLsb'_append_eq_right] using this
  · rintro ⟨rfl, rfl⟩; rfl

/-- The high nibble of a word. -/
def opOf (w : Word) : Nibble := w.extractLsb' 12 4

/-- The low 12 bits of a word. -/
def restOf (w : Word) : Addr12 := w.extractLsb' 0 12

theorem encodeNNN_toNat (op : Nibble) (r : Addr12) : (encodeNNN op r).toNat = op.toNat * 0x1000 + r.toNat := by
  have h := BitVec.toNat_append op r
  rw [← Nat.shiftLeft_add_eq_or_of_lt r.isLt, Nat.shiftLeft_eq] at h
  exact h

@[simp] theorem opOf_encodeNNN (op : Nibble) (r : Addr12) : opOf (encodeNNN op r) = op :=
  BitVec.extractLsb'_append_eq_left

@[simp] theorem restOf_encodeNNN (op : Nibble) (r : Addr12) : restOf (encodeNNN op r) = r :=
  BitVec.extractLsb'_append_eq_right

/-- Every word is its high nibble and its low 12 bits. -/
theorem encodeNNN_opOf_restOf (w : Word) : encodeNNN (opOf w) (restOf w) = w := by
  apply BitVec.eq_of_toNat_eq
  rw [encodeNNN_toNat]
  simp only [opOf, restOf, BitVec.extractLsb'_toNat, Nat.shiftRight_eq_div_pow]
  have := w.isLt
  omega

theorem encodeNNN_inj {op op' : Nibble} {r r' : Addr12} :
    encodeNNN op r = encodeNNN op' r' ↔ op = op' ∧ r = r' := append_eq_append op op' r r'

theorem and_encodeNNN (op op' : Nibble) (r r' : Addr12) :
    encodeNNN op r &&& encodeNNN op' r' = encodeNNN (op &&& op') (r &&& r') := BitVec.and_append

/-- A pattern tests the high nibble and the rest apart. -/
theorem Pattern.accepts_encodeNNN (p : Pattern) (op : Nibble) (r : Addr12) :
    p.accepts (encodeNNN op r) =
      (op &&& opOf p.mask == opOf p.value && r &&& restOf p.mask == restOf p.value) := by
  unfold Pattern.accepts
  conv_lhs => rw [← encodeNNN_opOf_restOf p.mask, ← encodeNNN_opOf_restOf p.value, and_encodeNNN]
  rw [Bool.eq_iff_iff]
  simp only [beq_iff_eq, Bool.and_eq_true]
  exact encodeNNN_inj

/-- The patterns that a word with this high nibble can match, in their order of priority. -/
def candidates (mask59 : Word) (op : Nibble) : List Pattern :=
  (patterns mask59).filter (fun p => op &&& opOf p.mask == opOf p.value)

/-- Decoding looks only at the candidates of the high nibble. -/
theorem decodeWith_encodeNNN (mask59 : Word) (op : Nibble) (r : Addr12) :
    decodeWith mask59 (encodeNNN op r) =
      ((candidates mask59 op).find? (fun p => r &&& restOf p.mask == restOf p.value)).map
        (fun p => p.build (fieldsOf (encodeNNN op r))) := by
  unfold decodeWith candidates
  rw [List.find?_filter]
  congr 2
  funext p
  rw [Pattern.accepts_encodeNNN]
  cases (op &&& opOf p.mask == opOf p.value) <;> simp [Bool.beq_eq_decide_eq]

theorem decodeWord_encodeNNN (op : Nibble) (r : Addr12) :
    decodeWord (encodeNNN op r) =
      ((candidates 0xF00F#16 op).find? (fun p => r &&& restOf p.mask == restOf p.value)).map
        (fun p => p.build (fieldsOf (encodeNNN op r))) := decodeWith_encodeNNN _ op r

theorem regBits_toNat (x : Reg) : (regBits x).toNat = x.val := rfl

theorem encodeXNN_toNat (op : Nibble) (x : Reg) (nn : Byte) :
    (encodeXNN op x nn).toNat = op.toNat * 0x1000 + x.val * 0x100 + nn.toNat := by
  have h := BitVec.toNat_append (regBits x) nn
  rw [← Nat.shiftLeft_add_eq_or_of_lt nn.isLt, Nat.shiftLeft_eq, regBits_toNat] at h
  rw [encodeXNN, encodeNNN_toNat]
  omega

theorem encodeXYN_toNat (op : Nibble) (x y : Reg) (n : Nibble) :
    (encodeXYN op x y n).toNat = op.toNat * 0x1000 + x.val * 0x100 + y.val * 0x10 + n.toNat := by
  have h := BitVec.toNat_append (regBits y) n
  rw [← Nat.shiftLeft_add_eq_or_of_lt n.isLt, Nat.shiftLeft_eq, regBits_toNat] at h
  rw [encodeXYN, encodeXNN_toNat]
  omega

/-! The fields of a word as numbers (30_encoding.md R71). -/

theorem fieldsOf_x_val (w : Word) : (fieldsOf w).x.val = w.toNat / 0x100 % 0x10 := by
  simp [fieldsOf, Nat.shiftRight_eq_div_pow]

theorem fieldsOf_y_val (w : Word) : (fieldsOf w).y.val = w.toNat / 0x10 % 0x10 := by
  simp [fieldsOf, Nat.shiftRight_eq_div_pow]

theorem fieldsOf_n_toNat (w : Word) : (fieldsOf w).n.toNat = w.toNat % 0x10 := by
  simp [fieldsOf, BitVec.extractLsb'_toNat]

theorem fieldsOf_nn_toNat (w : Word) : (fieldsOf w).nn.toNat = w.toNat % 0x100 := by
  simp [fieldsOf, BitVec.extractLsb'_toNat]

theorem fieldsOf_nnn_toNat (w : Word) : (fieldsOf w).nnn.toNat = w.toNat % 0x1000 := by
  simp [fieldsOf, BitVec.extractLsb'_toNat]

@[simp] theorem fieldsOf_encodeNNN_nnn (op : Nibble) (r : Addr12) : (fieldsOf (encodeNNN op r)).nnn = r := by
  apply BitVec.eq_of_toNat_eq
  rw [fieldsOf_nnn_toNat, encodeNNN_toNat]
  omega

@[simp] theorem fieldsOf_encodeXNN_x (op : Nibble) (x : Reg) (nn : Byte) : (fieldsOf (encodeXNN op x nn)).x = x := by
  apply Fin.ext
  rw [fieldsOf_x_val, encodeXNN_toNat]
  omega

@[simp] theorem fieldsOf_encodeXNN_nn (op : Nibble) (x : Reg) (nn : Byte) : (fieldsOf (encodeXNN op x nn)).nn = nn := by
  apply BitVec.eq_of_toNat_eq
  rw [fieldsOf_nn_toNat, encodeXNN_toNat]
  omega

@[simp] theorem fieldsOf_encodeXYN_x (op : Nibble) (x y : Reg) (n : Nibble) :
    (fieldsOf (encodeXYN op x y n)).x = x := fieldsOf_encodeXNN_x op x _

@[simp] theorem fieldsOf_encodeXYN_y (op : Nibble) (x y : Reg) (n : Nibble) :
    (fieldsOf (encodeXYN op x y n)).y = y := by
  apply Fin.ext
  rw [fieldsOf_y_val, encodeXYN_toNat]
  omega

@[simp] theorem fieldsOf_encodeXYN_n (op : Nibble) (x y : Reg) (n : Nibble) :
    (fieldsOf (encodeXYN op x y n)).n = n := by
  apply BitVec.eq_of_toNat_eq
  rw [fieldsOf_n_toNat, encodeXYN_toNat]
  omega

/-! Every word is the encoding of its own fields. -/

theorem encodeNNN_fieldsOf (w : Word) : encodeNNN (opOf w) (fieldsOf w).nnn = w := by
  apply BitVec.eq_of_toNat_eq
  rw [encodeNNN_toNat, fieldsOf_nnn_toNat]
  simp only [opOf, BitVec.extractLsb'_toNat, Nat.shiftRight_eq_div_pow]
  have := w.isLt
  omega

theorem encodeXNN_fieldsOf (w : Word) : encodeXNN (opOf w) (fieldsOf w).x (fieldsOf w).nn = w := by
  apply BitVec.eq_of_toNat_eq
  rw [encodeXNN_toNat, fieldsOf_x_val, fieldsOf_nn_toNat]
  simp only [opOf, BitVec.extractLsb'_toNat, Nat.shiftRight_eq_div_pow]
  have := w.isLt
  omega

theorem encodeXYN_fieldsOf (w : Word) :
    encodeXYN (opOf w) (fieldsOf w).x (fieldsOf w).y (fieldsOf w).n = w := by
  apply BitVec.eq_of_toNat_eq
  rw [encodeXYN_toNat, fieldsOf_x_val, fieldsOf_y_val, fieldsOf_n_toNat]
  simp only [opOf, BitVec.extractLsb'_toNat, Nat.shiftRight_eq_div_pow]
  have := w.isLt
  omega

/-! The tests of the patterns' low 12 bits, as tests on fields. -/

theorem rest_mask_all (r v : Addr12) : (r &&& 0xFFF#12 = v) ↔ (r = v) := by
  have : r &&& 0xFFF#12 = r := BitVec.and_allOnes
  rw [this]

theorem rest_mask_n (r : Addr12) (v : Nibble) : (r &&& 0x00F#12 = v.setWidth 12) ↔ (r.extractLsb' 0 4 = v) := by
  rw [← BitVec.toNat_inj, ← BitVec.toNat_inj, BitVec.toNat_and, BitVec.extractLsb'_toNat]
  have h : (0x00F#12).toNat = 2 ^ 4 - 1 := rfl
  rw [h, Nat.and_two_pow_sub_one_eq_mod, BitVec.toNat_setWidth, Nat.mod_eq_of_lt (a := v.toNat) (by omega),
    Nat.shiftRight_zero]

theorem rest_mask_nn (r : Addr12) (v : Byte) : (r &&& 0x0FF#12 = v.setWidth 12) ↔ (r.extractLsb' 0 8 = v) := by
  rw [← BitVec.toNat_inj, ← BitVec.toNat_inj, BitVec.toNat_and, BitVec.extractLsb'_toNat]
  have h : (0x0FF#12).toNat = 2 ^ 8 - 1 := rfl
  rw [h, Nat.and_two_pow_sub_one_eq_mod, BitVec.toNat_setWidth, Nat.mod_eq_of_lt (a := v.toNat) (by omega),
    Nat.shiftRight_zero]

/-- The literal low nibbles and low bytes of R73's patterns. -/
theorem rest_mask_n_literals (r : Addr12) :
    [0x0, 0x1, 0x2, 0x3, 0x4, 0x5, 0x6, 0x7, 0xE].Forall
      (fun k => (r &&& 0x00F#12 = BitVec.ofNat 12 k) ↔ (r.extractLsb' 0 4 = BitVec.ofNat 4 k)) :=
  ⟨rest_mask_n r 0x0#4, rest_mask_n r 0x1#4, rest_mask_n r 0x2#4, rest_mask_n r 0x3#4, rest_mask_n r 0x4#4,
    rest_mask_n r 0x5#4, rest_mask_n r 0x6#4, rest_mask_n r 0x7#4, rest_mask_n r 0xE#4⟩

@[inherit_doc rest_mask_n_literals] theorem rest_mask_nn_literals (r : Addr12) :
    [0x07, 0x0A, 0x15, 0x18, 0x1E, 0x29, 0x33, 0x55, 0x65, 0x9E, 0xA1].Forall
      (fun k => (r &&& 0x0FF#12 = BitVec.ofNat 12 k) ↔ (r.extractLsb' 0 8 = BitVec.ofNat 8 k)) :=
  ⟨rest_mask_nn r 0x07#8, rest_mask_nn r 0x0A#8, rest_mask_nn r 0x15#8, rest_mask_nn r 0x18#8, rest_mask_nn r 0x1E#8,
    rest_mask_nn r 0x29#8, rest_mask_nn r 0x33#8, rest_mask_nn r 0x55#8, rest_mask_nn r 0x65#8, rest_mask_nn r 0x9E#8,
    rest_mask_nn r 0xA1#8⟩

/-- The 8 family by its low nibble (30_encoding.md R78). -/
def select8 (f : Fields) : Option Instr :=
  if f.n = 0x0#4 then some (.ldReg f.x f.y) else if f.n = 0x1#4 then some (.orReg f.x f.y)
  else if f.n = 0x2#4 then some (.andReg f.x f.y) else if f.n = 0x3#4 then some (.xorReg f.x f.y)
  else if f.n = 0x4#4 then some (.addReg f.x f.y) else if f.n = 0x5#4 then some (.subReg f.x f.y)
  else if f.n = 0x6#4 then some (.shr f.x f.y) else if f.n = 0x7#4 then some (.subnReg f.x f.y)
  else if f.n = 0xE#4 then some (.shl f.x f.y) else none

/-- The F family by its low byte (R78). -/
def selectF (f : Fields) : Option Instr :=
  if f.nn = 0x07#8 then some (.ldVxDt f.x) else if f.nn = 0x0A#8 then some (.ldVxK f.x)
  else if f.nn = 0x15#8 then some (.ldDtVx f.x) else if f.nn = 0x18#8 then some (.ldStVx f.x)
  else if f.nn = 0x1E#8 then some (.addI f.x) else if f.nn = 0x29#8 then some (.ldF f.x)
  else if f.nn = 0x33#8 then some (.ldB f.x) else if f.nn = 0x55#8 then some (.dump f.x)
  else if f.nn = 0x65#8 then some (.load f.x) else none

/-- Selection by the high nibble first: the structure proofs use, equal to R73's priority match. -/
def select (op : Nibble) (f : Fields) : Option Instr :=
  match op.toNat with
  | 0 => if f.nnn = 0x0E0#12 then some .cls else if f.nnn = 0x0EE#12 then some .ret else some (.sys f.nnn)
  | 1 => some (.jp f.nnn)
  | 2 => some (.call f.nnn)
  | 3 => some (.seImm f.x f.nn)
  | 4 => some (.sneImm f.x f.nn)
  | 5 => if f.n = 0x0#4 then some (.seReg f.x f.y) else none
  | 6 => some (.ldImm f.x f.nn)
  | 7 => some (.addImm f.x f.nn)
  | 8 => select8 f
  | 9 => if f.n = 0x0#4 then some (.sneReg f.x f.y) else none
  | 10 => some (.ldI f.nnn)
  | 11 => some (.jpV0 f.nnn)
  | 12 => some (.rnd f.x f.nn)
  | 13 => some (.drw f.x f.y f.n)
  | 14 => if f.nn = 0x9E#8 then some (.skp f.x) else if f.nn = 0xA1#8 then some (.sknp f.x) else none
  | _ => selectF f

theorem nibble_cases (op : Nibble) :
    op = 0x0#4 ∨ op = 0x1#4 ∨ op = 0x2#4 ∨ op = 0x3#4 ∨ op = 0x4#4 ∨ op = 0x5#4 ∨ op = 0x6#4 ∨ op = 0x7#4 ∨
    op = 0x8#4 ∨ op = 0x9#4 ∨ op = 0xA#4 ∨ op = 0xB#4 ∨ op = 0xC#4 ∨ op = 0xD#4 ∨ op = 0xE#4 ∨ op = 0xF#4 := by
  revert op; decide

/-- One row of a search: the row's instruction where its test holds, else the search goes on. -/
theorem search_cons (r : Addr12) (f : Fields) (p : Pattern) (ps : List Pattern) :
    ((p :: ps).find? (fun p => r &&& restOf p.mask == restOf p.value)).map (fun p => p.build f) =
      if r &&& restOf p.mask = restOf p.value then some (p.build f)
      else (ps.find? (fun p => r &&& restOf p.mask == restOf p.value)).map (fun p => p.build f) := by
  rw [List.find?_cons]
  by_cases h : r &&& restOf p.mask = restOf p.value
  · simp [h]
  · rw [if_neg h, beq_false_of_ne h]

/-- The priority match of R73 is the selection by the high nibble. -/
theorem decodeWord_select_encodeNNN (op : Nibble) (r : Addr12) :
    decodeWord (encodeNNN op r) = select op (fieldsOf (encodeNNN op r)) := by
  rw [decodeWord_encodeNNN]
  have hn : (fieldsOf (encodeNNN op r)).n = r.extractLsb' 0 4 := by
    apply BitVec.eq_of_toNat_eq
    rw [fieldsOf_n_toNat, encodeNNN_toNat, BitVec.extractLsb'_toNat, Nat.shiftRight_zero]
    omega
  have hnn : (fieldsOf (encodeNNN op r)).nn = r.extractLsb' 0 8 := by
    apply BitVec.eq_of_toNat_eq
    rw [fieldsOf_nn_toNat, encodeNNN_toNat, BitVec.extractLsb'_toNat, Nat.shiftRight_zero]
    omega
  have hnnn := fieldsOf_encodeNNN_nnn op r
  generalize fieldsOf (encodeNNN op r) = f at *
  obtain ⟨x, y, n, nn, nnn⟩ := f
  simp only at hn hnn hnnn
  subst hn hnn
  obtain rfl : r = nnn := hnnn.symm
  have hn := rest_mask_n_literals r
  have hnn := rest_mask_nn_literals r
  simp only [List.Forall] at hn hnn
  rcases nibble_cases op with rfl | rfl | rfl | rfl | rfl | rfl | rfl | rfl | rfl | rfl | rfl | rfl | rfl | rfl | rfl | rfl
  all_goals
    simp only [candidates, patterns, exactPatterns, highNibblePatterns, registerPairPatterns, lowBytePatterns,
      List.cons_append, List.nil_append, List.filter_cons, List.filter_nil, opOf, BitVec.reduceExtractLsb',
      BitVec.reduceAnd, BitVec.reduceBEq, Bool.false_eq_true, if_true, if_false]
    simp only [search_cons]
    simp [restOf, select, select8, selectF, rest_mask_all, hn, hnn]

/-- Decoding, by the high nibble and the fields. -/
theorem decodeWord_eq_select (w : Word) : decodeWord w = select (opOf w) (fieldsOf w) := by
  rw [← encodeNNN_opOf_restOf w, decodeWord_select_encodeNNN, opOf_encodeNNN]

end Sys2Proof
end

