-- ==== Sys2Proof/Laws/Memory.lean ====
section
/-! SUPPORT. The laws of memory: read over write, and that every operation keeps the canonical form. -/

namespace Sys2Proof.Machine

theorem Memory.get_nil (a : Nat) : Memory.get [] a = Memory.initial a := rfl

theorem Memory.get_cons (k : Nat) (b : Byte) (m : Memory) (a : Nat) :
    Memory.get ((k, b) :: m) a = if a = k then b else Memory.get m a := rfl

theorem Memory.unlist_cons (k : Nat) (b : Byte) (m : Memory) (a : Nat) :
    Memory.unlist ((k, b) :: m) a = if k = a then Memory.unlist m a else (k, b) :: Memory.unlist m a := by
  by_cases h : k = a <;> simp [Memory.unlist, h]

theorem Memory.get_unlist (m : Memory) (a b : Nat) :
    (m.unlist a).get b = if b = a then Memory.initial a else m.get b := by
  induction m with
  | nil => split <;> simp_all [Memory.unlist, Memory.get]
  | cons c m ih =>
    obtain ⟨k, v⟩ := c
    rw [Memory.unlist_cons]
    by_cases hk : k = a
    · subst hk
      by_cases hb : b = k <;> simp_all [Memory.get_cons]
    · by_cases hb : b = a
      · subst hb
        simp_all [Memory.get_cons, Ne.symm hk]
      · by_cases hbk : b = k <;> simp_all [Memory.get_cons]

theorem Memory.get_insertCell (a : Nat) (v : Byte) (m : Memory) (b : Nat) (ha : ∀ c ∈ m, c.1 ≠ a) :
    (Memory.insertCell a v m).get b = if b = a then v else m.get b := by
  induction m with
  | nil => rfl
  | cons c m ih =>
    obtain ⟨k, w⟩ := c
    have hk : k ≠ a := ha (k, w) (by simp)
    have ih' := ih (fun c hc => ha c (by simp [hc]))
    simp only [Memory.insertCell]
    split
    · rfl
    · simp only [Memory.get_cons, ih']
      by_cases hb : b = a
      · subst hb; simp [Ne.symm hk]
      · simp [hb]

/-- Reading after writing one byte, with no condition on the memory. -/
theorem Memory.get_set (m : Memory) (a : Nat) (v : Byte) (b : Nat) :
    (m.set a v).get b = if b = a then v else m.get b := by
  unfold Memory.set
  split
  · next h => rw [Memory.get_unlist, h]
  · rw [Memory.get_insertCell]
    · rw [Memory.get_unlist]; split <;> simp_all
    · intro c hc; simp [Memory.unlist] at hc; exact hc.2

/-- Reading after writing bytes in a row. -/
theorem Memory.get_setMany (m : Memory) (a : Nat) (bs : List Byte) (b : Nat) :
    (m.setMany a bs).get b = if a ≤ b ∧ b < a + bs.length then bs.getD (b - a) 0#8 else m.get b := by
  induction bs generalizing m a with
  | nil => simp [Memory.setMany]
  | cons v bs ih =>
    rw [Memory.setMany, ih, Memory.get_set]
    by_cases hb : b = a
    · subst hb
      simp
    · by_cases h : a ≤ b ∧ b < a + (v :: bs).length
      · rw [if_pos h, if_pos (by simp at h; omega)]
        obtain ⟨d, rfl⟩ : ∃ d, b = a + 1 + d := ⟨b - (a + 1), by omega⟩
        rw [show a + 1 + d - (a + 1) = d by omega, show a + 1 + d - a = d + 1 by omega]
        rfl
      · rw [if_neg h, if_neg (by simp at h ⊢; omega), if_neg hb]

theorem Memory.canonicalFrom_mono {lo lo' : Nat} (h : lo' ≤ lo) {m : Memory} (hm : m.canonicalFrom lo = true) :
    m.canonicalFrom lo' = true := by
  cases m with
  | nil => rfl
  | cons c m =>
    obtain ⟨k, v⟩ := c
    simp [Memory.canonicalFrom] at hm ⊢
    exact ⟨⟨⟨by omega, hm.1.1.2⟩, hm.1.2⟩, hm.2⟩

theorem Memory.canonicalFrom_le {lo : Nat} {m : Memory} (hm : m.canonicalFrom lo = true) :
    ∀ c ∈ m, lo ≤ c.1 := by
  induction m generalizing lo with
  | nil => simp
  | cons c m ih =>
    obtain ⟨k, v⟩ := c
    simp [Memory.canonicalFrom] at hm
    intro d hd
    rcases List.mem_cons.mp hd with rfl | hd
    · exact hm.1.1.1
    · have := ih hm.2 d hd; omega

theorem Memory.unlist_canonicalFrom {lo : Nat} {m : Memory} (a : Nat) (hm : m.canonicalFrom lo = true) :
    (m.unlist a).canonicalFrom lo = true := by
  induction m generalizing lo with
  | nil => rfl
  | cons c m ih =>
    obtain ⟨k, v⟩ := c
    have hk := hm
    simp [Memory.canonicalFrom] at hk
    rw [Memory.unlist_cons]
    split
    · exact Memory.canonicalFrom_mono (by omega) (ih hk.2)
    · simp [Memory.canonicalFrom, hk.1, ih hk.2]

theorem Memory.insertCell_canonicalFrom {lo a : Nat} {v : Byte} {m : Memory} (hm : m.canonicalFrom lo = true)
    (hlo : lo ≤ a) (ha : a < Config.memSize) (hv : v ≠ Memory.initial a) (hne : ∀ c ∈ m, c.1 ≠ a) :
    (Memory.insertCell a v m).canonicalFrom lo = true := by
  induction m generalizing lo with
  | nil => simp [Memory.insertCell, Memory.canonicalFrom, hlo, ha, hv]
  | cons c m ih =>
    obtain ⟨k, w⟩ := c
    have hk := hm
    simp [Memory.canonicalFrom] at hk
    have hka : k ≠ a := hne (k, w) (by simp)
    simp only [Memory.insertCell]
    split
    · simp [Memory.canonicalFrom, hlo, ha, hv, hk]; omega
    · have := ih (lo := k + 1) hk.2 (by omega) (fun c hc => hne c (by simp [hc]))
      simp [Memory.canonicalFrom, hk.1, this]

/-- A write to an existing address keeps the canonical form. -/
theorem Memory.set_wf {m : Memory} {a : Nat} (v : Byte) (hm : m.wf = true) (ha : a < Config.memSize) :
    (m.set a v).wf = true := by
  unfold Memory.set Memory.wf
  split
  · exact Memory.unlist_canonicalFrom a hm
  · next h =>
    refine Memory.insertCell_canonicalFrom (Memory.unlist_canonicalFrom a hm) (Nat.zero_le a) ha h ?_
    intro c hc; simp [Memory.unlist] at hc; exact hc.2

/-- Writes to existing addresses keep the canonical form. -/
theorem Memory.setMany_wf {m : Memory} {a : Nat} (bs : List Byte) (hm : m.wf = true)
    (ha : a + bs.length ≤ Config.memSize) : (m.setMany a bs).wf = true := by
  induction bs generalizing m a with
  | nil => exact hm
  | cons v bs ih =>
    simp only [List.length_cons] at ha
    exact ih (Memory.set_wf v hm (by omega)) (by omega)

theorem Memory.imageFrom_canonical (f : Nat → Byte) (n lo : Nat) (h : lo + n ≤ Config.memSize) :
    Memory.canonicalFrom lo ((List.range' lo n).filterMap
      (fun a => if f a = Memory.initial a then none else some (a, f a))) = true := by
  induction n generalizing lo with
  | zero => rfl
  | succ n ih =>
    rw [List.range'_succ, List.filterMap_cons]
    have := ih (lo + 1) (by omega)
    split
    · exact Memory.canonicalFrom_mono (by omega) this
    · next c hc =>
      split at hc
      · cases hc
      · next hne => cases hc; simp [Memory.canonicalFrom, hne, this]; omega

/-- An image is in canonical form. -/
theorem Memory.ofImage_wf (f : Nat → Byte) : (Memory.ofImage f).wf = true := by
  have := Memory.imageFrom_canonical f Config.memSize 0 (by omega)
  rwa [← List.range_eq_range'] at this

theorem Memory.imageFrom_get (f : Nat → Byte) (n lo a : Nat) :
    Memory.get ((List.range' lo n).filterMap
      (fun a => if f a = Memory.initial a then none else some (a, f a))) a =
    if lo ≤ a ∧ a < lo + n then f a else Memory.initial a := by
  induction n generalizing lo with
  | zero => simp [Memory.get]
  | succ n ih =>
    rw [List.range'_succ, List.filterMap_cons]
    by_cases hf : f lo = Memory.initial lo
    · simp only [hf, if_true, ih]
      by_cases ha : a = lo
      · subst ha; simp [hf]
      · by_cases hr : lo ≤ a ∧ a < lo + (n + 1)
        · rw [if_pos hr, if_pos (by omega)]
        · rw [if_neg hr, if_neg (by omega)]
    · simp only [hf, if_false, Memory.get_cons, ih]
      by_cases ha : a = lo
      · subst ha; simp
      · rw [if_neg ha]
        by_cases hr : lo ≤ a ∧ a < lo + (n + 1)
        · rw [if_pos hr, if_pos (by omega)]
        · rw [if_neg hr, if_neg (by omega)]

/-- Every existing address of an image reads as the image says. -/
theorem Memory.get_ofImage (f : Nat → Byte) (a : Nat) :
    (Memory.ofImage f).get a = if a < Config.memSize then f a else Memory.initial a := by
  have := Memory.imageFrom_get f Config.memSize 0 a
  rw [← List.range_eq_range'] at this
  simpa [Memory.ofImage] using this

theorem Memory.getMany_length (m : Memory) (a n : Nat) : (m.getMany a n).length = n := by simp [Memory.getMany]

theorem Memory.getMany_getD (m : Memory) (a n k : Nat) (h : k < n) :
    (m.getMany a n).getD k 0#8 = m.get (a + k) := by simp [Memory.getMany, h]

/-- Memory after reset is in its canonical form. -/
theorem State.reset_mem_wf : State.reset.mem.wf = true := rfl

/-- The image that an unlisted memory already holds lists nothing. -/
theorem Memory.ofImage_eq_nil {f : Nat → Byte} (h : ∀ a, f a = Memory.initial a) : Memory.ofImage f = [] := by
  simp [Memory.ofImage, h]

end Sys2Proof.Machine
end

