-- ==== Sys2Proof/Laws/State.lean ====
section
/-! SUPPORT. One lemma per field per update of the state, all true by rfl, so that no proof unfolds a record update;
and what the accessors read after each update. -/

namespace Sys2Proof.Machine

variable (s : State)

section
variable (x : Reg) (b : Byte)
@[simp] theorem State.setReg_mem : (s.setReg x b).mem = s.mem := rfl
@[simp] theorem State.setReg_v : (s.setReg x b).v = s.v.set x b := rfl
@[simp] theorem State.setReg_i : (s.setReg x b).i = s.i := rfl
@[simp] theorem State.setReg_pc : (s.setReg x b).pc = s.pc := rfl
@[simp] theorem State.setReg_stack : (s.setReg x b).stack = s.stack := rfl
@[simp] theorem State.setReg_disp : (s.setReg x b).disp = s.disp := rfl
@[simp] theorem State.setReg_dt : (s.setReg x b).dt = s.dt := rfl
@[simp] theorem State.setReg_st : (s.setReg x b).st = s.st := rfl
@[simp] theorem State.setReg_keys : (s.setReg x b).keys = s.keys := rfl
@[simp] theorem State.setReg_latch : (s.setReg x b).latch = s.latch := rfl
@[simp] theorem State.setReg_armed : (s.setReg x b).armed = s.armed := rfl
@[simp] theorem State.setReg_keyEvent : (s.setReg x b).keyEvent = s.keyEvent := rfl
@[simp] theorem State.setReg_halted : (s.setReg x b).halted = s.halted := rfl
@[simp] theorem State.setReg_faultCause : (s.setReg x b).faultCause = s.faultCause := rfl
@[simp] theorem State.setReg_cfg : (s.setReg x b).cfg = s.cfg := rfl
@[simp] theorem State.setReg_draws : (s.setReg x b).draws = s.draws := rfl
@[simp] theorem State.setReg_diag : (s.setReg x b).diag = s.diag := rfl
@[simp] theorem State.readByte_setReg (a' : Nat) : (s.setReg x b).readByte a' = s.readByte a' := rfl
end

section
variable (w : Word)
@[simp] theorem State.setI_mem : (s.setI w).mem = s.mem := rfl
@[simp] theorem State.setI_v : (s.setI w).v = s.v := rfl
@[simp] theorem State.setI_i : (s.setI w).i = w := rfl
@[simp] theorem State.setI_pc : (s.setI w).pc = s.pc := rfl
@[simp] theorem State.setI_stack : (s.setI w).stack = s.stack := rfl
@[simp] theorem State.setI_disp : (s.setI w).disp = s.disp := rfl
@[simp] theorem State.setI_dt : (s.setI w).dt = s.dt := rfl
@[simp] theorem State.setI_st : (s.setI w).st = s.st := rfl
@[simp] theorem State.setI_keys : (s.setI w).keys = s.keys := rfl
@[simp] theorem State.setI_latch : (s.setI w).latch = s.latch := rfl
@[simp] theorem State.setI_armed : (s.setI w).armed = s.armed := rfl
@[simp] theorem State.setI_keyEvent : (s.setI w).keyEvent = s.keyEvent := rfl
@[simp] theorem State.setI_halted : (s.setI w).halted = s.halted := rfl
@[simp] theorem State.setI_faultCause : (s.setI w).faultCause = s.faultCause := rfl
@[simp] theorem State.setI_cfg : (s.setI w).cfg = s.cfg := rfl
@[simp] theorem State.setI_draws : (s.setI w).draws = s.draws := rfl
@[simp] theorem State.setI_diag : (s.setI w).diag = s.diag := rfl
@[simp] theorem State.reg_setI (r : Reg) : (s.setI w).reg r = s.reg r := rfl
@[simp] theorem State.readByte_setI (a' : Nat) : (s.setI w).readByte a' = s.readByte a' := rfl
end

section
variable (w : Word)
@[simp] theorem State.setPc_mem : (s.setPc w).mem = s.mem := rfl
@[simp] theorem State.setPc_v : (s.setPc w).v = s.v := rfl
@[simp] theorem State.setPc_i : (s.setPc w).i = s.i := rfl
@[simp] theorem State.setPc_pc : (s.setPc w).pc = w := rfl
@[simp] theorem State.setPc_stack : (s.setPc w).stack = s.stack := rfl
@[simp] theorem State.setPc_disp : (s.setPc w).disp = s.disp := rfl
@[simp] theorem State.setPc_dt : (s.setPc w).dt = s.dt := rfl
@[simp] theorem State.setPc_st : (s.setPc w).st = s.st := rfl
@[simp] theorem State.setPc_keys : (s.setPc w).keys = s.keys := rfl
@[simp] theorem State.setPc_latch : (s.setPc w).latch = s.latch := rfl
@[simp] theorem State.setPc_armed : (s.setPc w).armed = s.armed := rfl
@[simp] theorem State.setPc_keyEvent : (s.setPc w).keyEvent = s.keyEvent := rfl
@[simp] theorem State.setPc_halted : (s.setPc w).halted = s.halted := rfl
@[simp] theorem State.setPc_faultCause : (s.setPc w).faultCause = s.faultCause := rfl
@[simp] theorem State.setPc_cfg : (s.setPc w).cfg = s.cfg := rfl
@[simp] theorem State.setPc_draws : (s.setPc w).draws = s.draws := rfl
@[simp] theorem State.setPc_diag : (s.setPc w).diag = s.diag := rfl
@[simp] theorem State.reg_setPc (r : Reg) : (s.setPc w).reg r = s.reg r := rfl
@[simp] theorem State.readByte_setPc (a' : Nat) : (s.setPc w).readByte a' = s.readByte a' := rfl
end

section
variable (b : Byte)
@[simp] theorem State.setDt_mem : (s.setDt b).mem = s.mem := rfl
@[simp] theorem State.setDt_v : (s.setDt b).v = s.v := rfl
@[simp] theorem State.setDt_i : (s.setDt b).i = s.i := rfl
@[simp] theorem State.setDt_pc : (s.setDt b).pc = s.pc := rfl
@[simp] theorem State.setDt_stack : (s.setDt b).stack = s.stack := rfl
@[simp] theorem State.setDt_disp : (s.setDt b).disp = s.disp := rfl
@[simp] theorem State.setDt_dt : (s.setDt b).dt = b := rfl
@[simp] theorem State.setDt_st : (s.setDt b).st = s.st := rfl
@[simp] theorem State.setDt_keys : (s.setDt b).keys = s.keys := rfl
@[simp] theorem State.setDt_latch : (s.setDt b).latch = s.latch := rfl
@[simp] theorem State.setDt_armed : (s.setDt b).armed = s.armed := rfl
@[simp] theorem State.setDt_keyEvent : (s.setDt b).keyEvent = s.keyEvent := rfl
@[simp] theorem State.setDt_halted : (s.setDt b).halted = s.halted := rfl
@[simp] theorem State.setDt_faultCause : (s.setDt b).faultCause = s.faultCause := rfl
@[simp] theorem State.setDt_cfg : (s.setDt b).cfg = s.cfg := rfl
@[simp] theorem State.setDt_draws : (s.setDt b).draws = s.draws := rfl
@[simp] theorem State.setDt_diag : (s.setDt b).diag = s.diag := rfl
@[simp] theorem State.reg_setDt (r : Reg) : (s.setDt b).reg r = s.reg r := rfl
@[simp] theorem State.readByte_setDt (a' : Nat) : (s.setDt b).readByte a' = s.readByte a' := rfl
end

section
variable (b : Byte)
@[simp] theorem State.setSt_mem : (s.setSt b).mem = s.mem := rfl
@[simp] theorem State.setSt_v : (s.setSt b).v = s.v := rfl
@[simp] theorem State.setSt_i : (s.setSt b).i = s.i := rfl
@[simp] theorem State.setSt_pc : (s.setSt b).pc = s.pc := rfl
@[simp] theorem State.setSt_stack : (s.setSt b).stack = s.stack := rfl
@[simp] theorem State.setSt_disp : (s.setSt b).disp = s.disp := rfl
@[simp] theorem State.setSt_dt : (s.setSt b).dt = s.dt := rfl
@[simp] theorem State.setSt_st : (s.setSt b).st = b := rfl
@[simp] theorem State.setSt_keys : (s.setSt b).keys = s.keys := rfl
@[simp] theorem State.setSt_latch : (s.setSt b).latch = s.latch := rfl
@[simp] theorem State.setSt_armed : (s.setSt b).armed = s.armed := rfl
@[simp] theorem State.setSt_keyEvent : (s.setSt b).keyEvent = s.keyEvent := rfl
@[simp] theorem State.setSt_halted : (s.setSt b).halted = s.halted := rfl
@[simp] theorem State.setSt_faultCause : (s.setSt b).faultCause = s.faultCause := rfl
@[simp] theorem State.setSt_cfg : (s.setSt b).cfg = s.cfg := rfl
@[simp] theorem State.setSt_draws : (s.setSt b).draws = s.draws := rfl
@[simp] theorem State.setSt_diag : (s.setSt b).diag = s.diag := rfl
@[simp] theorem State.reg_setSt (r : Reg) : (s.setSt b).reg r = s.reg r := rfl
@[simp] theorem State.readByte_setSt (a' : Nat) : (s.setSt b).readByte a' = s.readByte a' := rfl
end

section
variable (d : Screen)
@[simp] theorem State.setDisp_mem : (s.setDisp d).mem = s.mem := rfl
@[simp] theorem State.setDisp_v : (s.setDisp d).v = s.v := rfl
@[simp] theorem State.setDisp_i : (s.setDisp d).i = s.i := rfl
@[simp] theorem State.setDisp_pc : (s.setDisp d).pc = s.pc := rfl
@[simp] theorem State.setDisp_stack : (s.setDisp d).stack = s.stack := rfl
@[simp] theorem State.setDisp_disp : (s.setDisp d).disp = d := rfl
@[simp] theorem State.setDisp_dt : (s.setDisp d).dt = s.dt := rfl
@[simp] theorem State.setDisp_st : (s.setDisp d).st = s.st := rfl
@[simp] theorem State.setDisp_keys : (s.setDisp d).keys = s.keys := rfl
@[simp] theorem State.setDisp_latch : (s.setDisp d).latch = s.latch := rfl
@[simp] theorem State.setDisp_armed : (s.setDisp d).armed = s.armed := rfl
@[simp] theorem State.setDisp_keyEvent : (s.setDisp d).keyEvent = s.keyEvent := rfl
@[simp] theorem State.setDisp_halted : (s.setDisp d).halted = s.halted := rfl
@[simp] theorem State.setDisp_faultCause : (s.setDisp d).faultCause = s.faultCause := rfl
@[simp] theorem State.setDisp_cfg : (s.setDisp d).cfg = s.cfg := rfl
@[simp] theorem State.setDisp_draws : (s.setDisp d).draws = s.draws := rfl
@[simp] theorem State.setDisp_diag : (s.setDisp d).diag = s.diag := rfl
@[simp] theorem State.reg_setDisp (r : Reg) : (s.setDisp d).reg r = s.reg r := rfl
@[simp] theorem State.readByte_setDisp (a' : Nat) : (s.setDisp d).readByte a' = s.readByte a' := rfl
end

section
variable (m : Memory)
@[simp] theorem State.setMem_mem : (s.setMem m).mem = m := rfl
@[simp] theorem State.setMem_v : (s.setMem m).v = s.v := rfl
@[simp] theorem State.setMem_i : (s.setMem m).i = s.i := rfl
@[simp] theorem State.setMem_pc : (s.setMem m).pc = s.pc := rfl
@[simp] theorem State.setMem_stack : (s.setMem m).stack = s.stack := rfl
@[simp] theorem State.setMem_disp : (s.setMem m).disp = s.disp := rfl
@[simp] theorem State.setMem_dt : (s.setMem m).dt = s.dt := rfl
@[simp] theorem State.setMem_st : (s.setMem m).st = s.st := rfl
@[simp] theorem State.setMem_keys : (s.setMem m).keys = s.keys := rfl
@[simp] theorem State.setMem_latch : (s.setMem m).latch = s.latch := rfl
@[simp] theorem State.setMem_armed : (s.setMem m).armed = s.armed := rfl
@[simp] theorem State.setMem_keyEvent : (s.setMem m).keyEvent = s.keyEvent := rfl
@[simp] theorem State.setMem_halted : (s.setMem m).halted = s.halted := rfl
@[simp] theorem State.setMem_faultCause : (s.setMem m).faultCause = s.faultCause := rfl
@[simp] theorem State.setMem_cfg : (s.setMem m).cfg = s.cfg := rfl
@[simp] theorem State.setMem_draws : (s.setMem m).draws = s.draws := rfl
@[simp] theorem State.setMem_diag : (s.setMem m).diag = s.diag := rfl
@[simp] theorem State.reg_setMem (r : Reg) : (s.setMem m).reg r = s.reg r := rfl
end

section
variable (l : List Word)
@[simp] theorem State.setStack_mem : (s.setStack l).mem = s.mem := rfl
@[simp] theorem State.setStack_v : (s.setStack l).v = s.v := rfl
@[simp] theorem State.setStack_i : (s.setStack l).i = s.i := rfl
@[simp] theorem State.setStack_pc : (s.setStack l).pc = s.pc := rfl
@[simp] theorem State.setStack_stack : (s.setStack l).stack = l := rfl
@[simp] theorem State.setStack_disp : (s.setStack l).disp = s.disp := rfl
@[simp] theorem State.setStack_dt : (s.setStack l).dt = s.dt := rfl
@[simp] theorem State.setStack_st : (s.setStack l).st = s.st := rfl
@[simp] theorem State.setStack_keys : (s.setStack l).keys = s.keys := rfl
@[simp] theorem State.setStack_latch : (s.setStack l).latch = s.latch := rfl
@[simp] theorem State.setStack_armed : (s.setStack l).armed = s.armed := rfl
@[simp] theorem State.setStack_keyEvent : (s.setStack l).keyEvent = s.keyEvent := rfl
@[simp] theorem State.setStack_halted : (s.setStack l).halted = s.halted := rfl
@[simp] theorem State.setStack_faultCause : (s.setStack l).faultCause = s.faultCause := rfl
@[simp] theorem State.setStack_cfg : (s.setStack l).cfg = s.cfg := rfl
@[simp] theorem State.setStack_draws : (s.setStack l).draws = s.draws := rfl
@[simp] theorem State.setStack_diag : (s.setStack l).diag = s.diag := rfl
@[simp] theorem State.reg_setStack (r : Reg) : (s.setStack l).reg r = s.reg r := rfl
@[simp] theorem State.readByte_setStack (a' : Nat) : (s.setStack l).readByte a' = s.readByte a' := rfl
end

section
variable (a e : Bool)
@[simp] theorem State.setWait_mem : (s.setWait a e).mem = s.mem := rfl
@[simp] theorem State.setWait_v : (s.setWait a e).v = s.v := rfl
@[simp] theorem State.setWait_i : (s.setWait a e).i = s.i := rfl
@[simp] theorem State.setWait_pc : (s.setWait a e).pc = s.pc := rfl
@[simp] theorem State.setWait_stack : (s.setWait a e).stack = s.stack := rfl
@[simp] theorem State.setWait_disp : (s.setWait a e).disp = s.disp := rfl
@[simp] theorem State.setWait_dt : (s.setWait a e).dt = s.dt := rfl
@[simp] theorem State.setWait_st : (s.setWait a e).st = s.st := rfl
@[simp] theorem State.setWait_keys : (s.setWait a e).keys = s.keys := rfl
@[simp] theorem State.setWait_latch : (s.setWait a e).latch = s.latch := rfl
@[simp] theorem State.setWait_armed : (s.setWait a e).armed = a := rfl
@[simp] theorem State.setWait_keyEvent : (s.setWait a e).keyEvent = e := rfl
@[simp] theorem State.setWait_halted : (s.setWait a e).halted = s.halted := rfl
@[simp] theorem State.setWait_faultCause : (s.setWait a e).faultCause = s.faultCause := rfl
@[simp] theorem State.setWait_cfg : (s.setWait a e).cfg = s.cfg := rfl
@[simp] theorem State.setWait_draws : (s.setWait a e).draws = s.draws := rfl
@[simp] theorem State.setWait_diag : (s.setWait a e).diag = s.diag := rfl
@[simp] theorem State.reg_setWait (r : Reg) : (s.setWait a e).reg r = s.reg r := rfl
@[simp] theorem State.readByte_setWait (a' : Nat) : (s.setWait a e).readByte a' = s.readByte a' := rfl
end

section
variable (f : Fault)
@[simp] theorem State.raise_mem : (s.raise f).mem = s.mem := rfl
@[simp] theorem State.raise_v : (s.raise f).v = s.v := rfl
@[simp] theorem State.raise_i : (s.raise f).i = s.i := rfl
@[simp] theorem State.raise_pc : (s.raise f).pc = s.pc := rfl
@[simp] theorem State.raise_stack : (s.raise f).stack = s.stack := rfl
@[simp] theorem State.raise_disp : (s.raise f).disp = s.disp := rfl
@[simp] theorem State.raise_dt : (s.raise f).dt = s.dt := rfl
@[simp] theorem State.raise_st : (s.raise f).st = s.st := rfl
@[simp] theorem State.raise_keys : (s.raise f).keys = s.keys := rfl
@[simp] theorem State.raise_latch : (s.raise f).latch = s.latch := rfl
@[simp] theorem State.raise_armed : (s.raise f).armed = s.armed := rfl
@[simp] theorem State.raise_keyEvent : (s.raise f).keyEvent = s.keyEvent := rfl
@[simp] theorem State.raise_halted : (s.raise f).halted = true := rfl
@[simp] theorem State.raise_faultCause : (s.raise f).faultCause = some f := rfl
@[simp] theorem State.raise_cfg : (s.raise f).cfg = s.cfg := rfl
@[simp] theorem State.raise_draws : (s.raise f).draws = s.draws := rfl
@[simp] theorem State.raise_diag : (s.raise f).diag = s.diag := rfl
@[simp] theorem State.reg_raise (r : Reg) : (s.raise f).reg r = s.reg r := rfl
@[simp] theorem State.readByte_raise (a' : Nat) : (s.raise f).readByte a' = s.readByte a' := rfl
end

section
variable (w : Word)
@[simp] theorem State.signalUnimplemented_mem : (s.signalUnimplemented w).mem = s.mem := rfl
@[simp] theorem State.signalUnimplemented_v : (s.signalUnimplemented w).v = s.v := rfl
@[simp] theorem State.signalUnimplemented_i : (s.signalUnimplemented w).i = s.i := rfl
@[simp] theorem State.signalUnimplemented_pc : (s.signalUnimplemented w).pc = s.pc := rfl
@[simp] theorem State.signalUnimplemented_stack : (s.signalUnimplemented w).stack = s.stack := rfl
@[simp] theorem State.signalUnimplemented_disp : (s.signalUnimplemented w).disp = s.disp := rfl
@[simp] theorem State.signalUnimplemented_dt : (s.signalUnimplemented w).dt = s.dt := rfl
@[simp] theorem State.signalUnimplemented_st : (s.signalUnimplemented w).st = s.st := rfl
@[simp] theorem State.signalUnimplemented_keys : (s.signalUnimplemented w).keys = s.keys := rfl
@[simp] theorem State.signalUnimplemented_latch : (s.signalUnimplemented w).latch = s.latch := rfl
@[simp] theorem State.signalUnimplemented_armed : (s.signalUnimplemented w).armed = s.armed := rfl
@[simp] theorem State.signalUnimplemented_keyEvent : (s.signalUnimplemented w).keyEvent = s.keyEvent := rfl
@[simp] theorem State.signalUnimplemented_halted : (s.signalUnimplemented w).halted = s.halted := rfl
@[simp] theorem State.signalUnimplemented_faultCause : (s.signalUnimplemented w).faultCause = s.faultCause := rfl
@[simp] theorem State.signalUnimplemented_cfg : (s.signalUnimplemented w).cfg = s.cfg := rfl
@[simp] theorem State.signalUnimplemented_draws : (s.signalUnimplemented w).draws = s.draws := rfl
@[simp] theorem State.signalUnimplemented_diag : (s.signalUnimplemented w).diag = w :: s.diag := rfl
@[simp] theorem State.reg_signalUnimplemented (r : Reg) : (s.signalUnimplemented w).reg r = s.reg r := rfl
@[simp] theorem State.readByte_signalUnimplemented (a' : Nat) : (s.signalUnimplemented w).readByte a' = s.readByte a' := rfl
end

section
variable (k : Nibble)
@[simp] theorem State.press_mem : (s.press k).mem = s.mem := rfl
@[simp] theorem State.press_v : (s.press k).v = s.v := rfl
@[simp] theorem State.press_i : (s.press k).i = s.i := rfl
@[simp] theorem State.press_pc : (s.press k).pc = s.pc := rfl
@[simp] theorem State.press_stack : (s.press k).stack = s.stack := rfl
@[simp] theorem State.press_disp : (s.press k).disp = s.disp := rfl
@[simp] theorem State.press_dt : (s.press k).dt = s.dt := rfl
@[simp] theorem State.press_st : (s.press k).st = s.st := rfl
@[simp] theorem State.press_keys : (s.press k).keys = s.keys.set k.toFin true := rfl
@[simp] theorem State.press_latch : (s.press k).latch = k := rfl
@[simp] theorem State.press_armed : (s.press k).armed = s.armed := rfl
@[simp] theorem State.press_keyEvent : (s.press k).keyEvent = (s.keyEvent || s.armed) := rfl
@[simp] theorem State.press_halted : (s.press k).halted = s.halted := rfl
@[simp] theorem State.press_faultCause : (s.press k).faultCause = s.faultCause := rfl
@[simp] theorem State.press_cfg : (s.press k).cfg = s.cfg := rfl
@[simp] theorem State.press_draws : (s.press k).draws = s.draws := rfl
@[simp] theorem State.press_diag : (s.press k).diag = s.diag := rfl
@[simp] theorem State.reg_press (r : Reg) : (s.press k).reg r = s.reg r := rfl
@[simp] theorem State.readByte_press (a' : Nat) : (s.press k).readByte a' = s.readByte a' := rfl
end

section
variable (k : Nibble)
@[simp] theorem State.release_mem : (s.release k).mem = s.mem := rfl
@[simp] theorem State.release_v : (s.release k).v = s.v := rfl
@[simp] theorem State.release_i : (s.release k).i = s.i := rfl
@[simp] theorem State.release_pc : (s.release k).pc = s.pc := rfl
@[simp] theorem State.release_stack : (s.release k).stack = s.stack := rfl
@[simp] theorem State.release_disp : (s.release k).disp = s.disp := rfl
@[simp] theorem State.release_dt : (s.release k).dt = s.dt := rfl
@[simp] theorem State.release_st : (s.release k).st = s.st := rfl
@[simp] theorem State.release_keys : (s.release k).keys = s.keys.set k.toFin false := rfl
@[simp] theorem State.release_latch : (s.release k).latch = s.latch := rfl
@[simp] theorem State.release_armed : (s.release k).armed = s.armed := rfl
@[simp] theorem State.release_keyEvent : (s.release k).keyEvent = s.keyEvent := rfl
@[simp] theorem State.release_halted : (s.release k).halted = s.halted := rfl
@[simp] theorem State.release_faultCause : (s.release k).faultCause = s.faultCause := rfl
@[simp] theorem State.release_cfg : (s.release k).cfg = s.cfg := rfl
@[simp] theorem State.release_draws : (s.release k).draws = s.draws := rfl
@[simp] theorem State.release_diag : (s.release k).diag = s.diag := rfl
@[simp] theorem State.reg_release (r : Reg) : (s.release k).reg r = s.reg r := rfl
@[simp] theorem State.readByte_release (a' : Nat) : (s.release k).readByte a' = s.readByte a' := rfl
end

section
@[simp] theorem State.draw_mem : s.draw.2.mem = s.mem := rfl
@[simp] theorem State.draw_v : s.draw.2.v = s.v := rfl
@[simp] theorem State.draw_i : s.draw.2.i = s.i := rfl
@[simp] theorem State.draw_pc : s.draw.2.pc = s.pc := rfl
@[simp] theorem State.draw_stack : s.draw.2.stack = s.stack := rfl
@[simp] theorem State.draw_disp : s.draw.2.disp = s.disp := rfl
@[simp] theorem State.draw_dt : s.draw.2.dt = s.dt := rfl
@[simp] theorem State.draw_st : s.draw.2.st = s.st := rfl
@[simp] theorem State.draw_keys : s.draw.2.keys = s.keys := rfl
@[simp] theorem State.draw_latch : s.draw.2.latch = s.latch := rfl
@[simp] theorem State.draw_armed : s.draw.2.armed = s.armed := rfl
@[simp] theorem State.draw_keyEvent : s.draw.2.keyEvent = s.keyEvent := rfl
@[simp] theorem State.draw_halted : s.draw.2.halted = s.halted := rfl
@[simp] theorem State.draw_faultCause : s.draw.2.faultCause = s.faultCause := rfl
@[simp] theorem State.draw_cfg : s.draw.2.cfg = s.cfg := rfl
@[simp] theorem State.draw_draws : s.draw.2.draws = s.draws + 1 := rfl
@[simp] theorem State.draw_diag : s.draw.2.diag = s.diag := rfl
@[simp] theorem State.reg_draw (r : Reg) : s.draw.2.reg r = s.reg r := rfl
@[simp] theorem State.readByte_draw (a : Nat) : s.draw.2.readByte a = s.readByte a := rfl
@[simp] theorem State.draw_byte : s.draw.1 = Config.randByte s.draws := rfl
end

/-- The derived updates, each in terms of the updates above. -/
@[simp] theorem State.advance_eq : s.advance = s.setPc (s.pc + 2#16) := rfl
@[simp] theorem State.skipIf_eq (c : Bool) : s.skipIf c = s.setPc (s.pc + if c then 4#16 else 2#16) := rfl
@[simp] theorem State.push_eq (w : Word) : s.push w = s.setStack (w :: s.stack) := rfl
@[simp] theorem State.storeBytes_eq (a : Nat) (bs : List Byte) : s.storeBytes a bs = s.setMem (s.mem.setMany a bs) := rfl
@[simp] theorem State.setRegFlag_eq (x : Reg) (b f : Byte) : s.setRegFlag x b f = (s.setReg x b).setReg Reg.vf f := rfl

/-- Reading a register after a register is written. -/
@[simp] theorem State.reg_setReg (x : Reg) (b : Byte) (r : Reg) :
    (s.setReg x b).reg r = if r = x then b else s.reg r := by
  simp only [State.reg, State.setReg, Fin.getElem_fin, Vector.getElem_set]
  by_cases h : r = x
  · subst h; simp
  · have : x.val ≠ r.val := fun e => h (Fin.ext e.symm)
    simp [h, this]

@[simp] theorem State.readByte_setMem (m : Memory) (a : Nat) : (s.setMem m).readByte a = m.get a := rfl

/-- Two register files that read the same are the same. -/
theorem State.v_ext {s t : State} (h : ∀ r, s.reg r = t.reg r) : s.v = t.v := by
  apply Vector.ext
  intro k hk
  exact h ⟨k, hk⟩

/-- A state is determined by its fields; the register file by what it reads. -/
theorem State.readByte_eq (a : Nat) : s.readByte a = s.mem.get a := rfl

end Sys2Proof.Machine
end

