-- ==== Sys2Proof/Laws/Ops.lean ====
section
/-! SUPPORT. What each shared operation can do, said once: the range check, the guarded access, block loads and
block stores. -/

namespace Sys2Proof.Machine

theorem outOfRange_eq_none {a n : Nat} : outOfRange a n = none ↔ n = 0 ∨ a + n ≤ Config.memSize := by
  unfold outOfRange
  rw [Option.map_eq_none_iff, List.find?_eq_none]
  simp only [List.mem_range, decide_eq_true_eq]
  constructor
  · intro h
    cases n with
    | zero => exact .inl rfl
    | succ n => have := h n (by omega); right; omega
  · rintro (rfl | h) k hk <;> omega

/-- What the check reports is the lowest missing address of the access (20_memory.md R53, 60_exceptions.md R182). -/
theorem outOfRange_eq_some {a n bad : Nat} : outOfRange a n = some bad ↔
    Config.memSize ≤ bad ∧ a ≤ bad ∧ bad < a + n ∧ ∀ b, a ≤ b → b < bad → b < Config.memSize := by
  unfold outOfRange
  simp only [Option.map_eq_some_iff, List.find?_range_eq_some, decide_eq_true_eq, List.mem_range]
  constructor
  · rintro ⟨k, ⟨h1, h2, h3⟩, rfl⟩
    refine ⟨h1, by omega, by omega, fun b hb hlt => ?_⟩
    have := h3 (b - a) (by omega)
    simp at this; omega
  · rintro ⟨h1, h2, h3, h4⟩
    refine ⟨bad - a, ⟨by omega, by omega, fun j hj => ?_⟩, by omega⟩
    have := h4 (a + j) (by omega) (by omega)
    simp; omega

/-- A check that fails reports an address that 16 bits hold. -/
theorem outOfRange_le {w : Word} {n bad : Nat} (h : outOfRange w.toNat n = some bad) :
    Config.memSize ≤ bad ∧ bad ≤ 0xFFFF := by
  obtain ⟨h1, h2, h3, h4⟩ := outOfRange_eq_some.mp h
  refine ⟨h1, ?_⟩
  have := w.isLt
  by_cases hb : bad = w.toNat
  · omega
  · have := h4 (bad - 1) (by omega) (by omega)
    simp only [Config.memSize] at *
    omega

theorem State.withRange_ok {s : State} {a n : Nat} (go : State) (h : n = 0 ∨ a + n ≤ Config.memSize) :
    s.withRange a n go = .next go := by
  rw [State.withRange, outOfRange_eq_none.mpr h]

theorem State.withRange_bad {s : State} {a n bad : Nat} (go : State) (h : outOfRange a n = some bad) :
    s.withRange a n go = .next (s.raise (.memOutOfRange bad)) := by
  rw [State.withRange, h]

/-- Everything a guarded access can do. -/
theorem State.withRange_cases (s : State) (a n : Nat) (go : State) :
    ((n = 0 ∨ a + n ≤ Config.memSize) ∧ s.withRange a n go = .next go) ∨
    ∃ bad, outOfRange a n = some bad ∧ s.withRange a n go = .next (s.raise (.memOutOfRange bad)) := by
  cases h : outOfRange a n with
  | none => exact .inl ⟨outOfRange_eq_none.mp h, State.withRange_ok go (outOfRange_eq_none.mp h)⟩
  | some bad => exact .inr ⟨bad, rfl, State.withRange_bad go h⟩

/-- A block load writes registers and nothing else. -/
theorem State.setRegsFrom_eq (s : State) (k : Nat) (bs : List Byte) :
    s.setRegsFrom k bs = { s with v := (s.setRegsFrom k bs).v } := by
  induction bs generalizing s k with
  | nil => rfl
  | cons b bs ih =>
    unfold State.setRegsFrom
    split
    · exact ih _ _
    · rfl

/-! A block load leaves every other field. -/

section
variable (s : State) (k : Nat) (bs : List Byte)
@[simp] theorem State.setRegsFrom_mem : (s.setRegsFrom k bs).mem = s.mem := by rw [State.setRegsFrom_eq]
@[simp] theorem State.setRegsFrom_i : (s.setRegsFrom k bs).i = s.i := by rw [State.setRegsFrom_eq]
@[simp] theorem State.setRegsFrom_pc : (s.setRegsFrom k bs).pc = s.pc := by rw [State.setRegsFrom_eq]
@[simp] theorem State.setRegsFrom_stack : (s.setRegsFrom k bs).stack = s.stack := by rw [State.setRegsFrom_eq]
@[simp] theorem State.setRegsFrom_disp : (s.setRegsFrom k bs).disp = s.disp := by rw [State.setRegsFrom_eq]
@[simp] theorem State.setRegsFrom_dt : (s.setRegsFrom k bs).dt = s.dt := by rw [State.setRegsFrom_eq]
@[simp] theorem State.setRegsFrom_st : (s.setRegsFrom k bs).st = s.st := by rw [State.setRegsFrom_eq]
@[simp] theorem State.setRegsFrom_keys : (s.setRegsFrom k bs).keys = s.keys := by rw [State.setRegsFrom_eq]
@[simp] theorem State.setRegsFrom_latch : (s.setRegsFrom k bs).latch = s.latch := by rw [State.setRegsFrom_eq]
@[simp] theorem State.setRegsFrom_armed : (s.setRegsFrom k bs).armed = s.armed := by rw [State.setRegsFrom_eq]
@[simp] theorem State.setRegsFrom_keyEvent : (s.setRegsFrom k bs).keyEvent = s.keyEvent := by rw [State.setRegsFrom_eq]
@[simp] theorem State.setRegsFrom_halted : (s.setRegsFrom k bs).halted = s.halted := by rw [State.setRegsFrom_eq]
@[simp] theorem State.setRegsFrom_faultCause : (s.setRegsFrom k bs).faultCause = s.faultCause := by rw [State.setRegsFrom_eq]
@[simp] theorem State.setRegsFrom_cfg : (s.setRegsFrom k bs).cfg = s.cfg := by rw [State.setRegsFrom_eq]
@[simp] theorem State.setRegsFrom_draws : (s.setRegsFrom k bs).draws = s.draws := by rw [State.setRegsFrom_eq]
@[simp] theorem State.setRegsFrom_diag : (s.setRegsFrom k bs).diag = s.diag := by rw [State.setRegsFrom_eq]
end

/-- The registers a block load writes. -/
theorem State.reg_setRegsFrom (s : State) (k : Nat) (bs : List Byte) (r : Reg) :
    (s.setRegsFrom k bs).reg r = if k ≤ r.val ∧ r.val < k + bs.length then bs.getD (r.val - k) 0#8 else s.reg r := by
  induction bs generalizing s k with
  | nil => simp [State.setRegsFrom]
  | cons b bs ih =>
    unfold State.setRegsFrom
    split
    · next h =>
      rw [ih, State.reg_setReg]
      by_cases hr : r.val = k
      · have : r = ⟨k, h⟩ := Fin.ext hr
        subst this
        simp
      · have hne : r ≠ ⟨k, h⟩ := fun e => hr (by rw [e])
        rw [if_neg hne]
        by_cases hin : k ≤ r.val ∧ r.val < k + (b :: bs).length
        · rw [if_pos hin, if_pos (by simp at hin; omega)]
          obtain ⟨d, hd⟩ : ∃ d, r.val = k + 1 + d := ⟨r.val - (k + 1), by omega⟩
          rw [hd, show k + 1 + d - (k + 1) = d by omega, show k + 1 + d - k = d + 1 by omega]
          rfl
        · rw [if_neg hin, if_neg (by simp at hin ⊢; omega)]
    · next h =>
      have := r.isLt
      rw [if_neg (by omega)]

theorem State.regsUpTo_length (s : State) (x : Reg) : (s.regsUpTo x).length = x.val + 1 := by
  simp [State.regsUpTo]

/-- The k-th byte of a block store is V[k]. -/
theorem State.regsUpTo_getD (s : State) (x : Reg) (k : Reg) (h : k.val ≤ x.val) :
    (s.regsUpTo x).getD k.val 0#8 = s.reg k := by
  have hk : k.val < (s.regsUpTo x).length := by rw [s.regsUpTo_length]; omega
  rw [List.getD_eq_getElem _ _ hk]
  simp [State.regsUpTo, State.reg]

theorem bcdDigits_length (b : Byte) : (bcdDigits b).length = 3 := rfl

end Sys2Proof.Machine
end

