-- ==== Sys2Proof/Laws/Draw.lean ====
section
/-! SUPPORT. The display, pixel by pixel: what a sprite row covers, and what drawing rows does to each pixel and to
the collision (45_display.md R150 to R153). -/

namespace Sys2Proof.Machine

theorem spriteByte_getMsbD (b : Byte) (k : Nat) :
    (b ++ 0#56 : BitVec (8 + 56)).getMsbD k = (decide (k < 8) && b.getLsbD (7 - k)) := by
  rw [BitVec.getMsbD_append]
  by_cases h : k < 8
  · simp [h, BitVec.getMsbD]
  · simp [h]

/-- The pixels a sprite byte at column `x0` covers: bit 7 - c at column x0 + c, nothing from column 64 on. -/
theorem spriteRow_getMsbD (b : Byte) (x0 px : Nat) :
    (spriteRow b x0).getMsbD px =
      (decide (px < 64) && decide (x0 ≤ px) && decide (px < x0 + 8) && b.getLsbD (7 - (px - x0))) := by
  have h : (spriteRow b x0).getMsbD px = (decide (px < 64) && (!decide (px < x0) &&
      (b ++ 0#56 : BitVec (8 + 56)).getMsbD (px - x0))) := by
    unfold spriteRow
    exact BitVec.getMsbD_ushiftRight
  rw [h, spriteByte_getMsbD]
  by_cases h1 : px < x0
  · simp [h1, Nat.not_le.mpr h1]
  · by_cases h2 : px < x0 + 8
    · simp [h1, h2, Nat.not_lt.mp h1, show px - x0 < 8 by omega]
    · simp [h1, h2, show ¬ px - x0 < 8 by omega]

/-- A row has a common pixel with a mask exactly where both have a 1. -/
theorem and_ne_zero_iff (a b : BitVec 64) :
    (a &&& b != 0#64) = true ↔ ∃ k, k < 64 ∧ a.getMsbD k = true ∧ b.getMsbD k = true := by
  rw [bne_iff_ne]
  constructor
  · intro h
    by_contra hc
    refine h (BitVec.eq_of_getMsbD_eq fun k hk => ?_)
    rw [BitVec.getMsbD_and, BitVec.getMsbD_zero]
    cases ha : a.getMsbD k
    · rfl
    · cases hb : b.getMsbD k
      · rfl
      · exact absurd ⟨k, hk, ha, hb⟩ hc
  · rintro ⟨k, hk, ha, hb⟩ h
    have := congrArg (fun w => w.getMsbD k) h
    simp [ha, hb] at this

/-- The bit that rows drawn from row `y0` put at a pixel. -/
def rowsAt (x0 y0 : Nat) (bs : List Byte) (px py : Nat) : Bool :=
  decide (y0 ≤ py) && decide (py < y0 + bs.length) && (spriteRow (bs.getD (py - y0) 0#8) x0).getMsbD px

theorem rowsAt_cons (x0 y0 : Nat) (b : Byte) (bs : List Byte) (px py : Nat) :
    rowsAt x0 y0 (b :: bs) px py =
      if py = y0 then (spriteRow b x0).getMsbD px else rowsAt x0 (y0 + 1) bs px py := by
  unfold rowsAt
  by_cases h : py = y0
  · subst h; simp
  · rw [if_neg h]
    by_cases hr : y0 + 1 ≤ py
    · obtain ⟨d, rfl⟩ : ∃ d, py = y0 + 1 + d := ⟨py - (y0 + 1), by omega⟩
      rw [show y0 + 1 + d - (y0 + 1) = d by omega, show y0 + 1 + d - y0 = d + 1 by omega]
      have e1 : decide (y0 ≤ y0 + 1 + d) = true := by simp; omega
      have e2 : decide (y0 + 1 + d < y0 + (b :: bs).length) = decide (y0 + 1 + d < y0 + 1 + bs.length) := by
        simp only [List.length_cons, decide_eq_decide]; omega
      rw [e1, e2, decide_eq_true hr]
      rfl
    · simp [hr, show ¬ y0 ≤ py by omega]

/-- What drawing rows does to every pixel: XOR with the sprite's bit inside the display. -/
theorem drawRows_pixel (x0 y0 : Nat) (bs : List Byte) (d : Screen) (hit : Bool) (px py : Nat) (hpy : py < 32) :
    (drawRows x0 y0 bs (d, hit)).1.pixel px py = (d.pixel px py ^^ rowsAt x0 y0 bs px py) := by
  induction bs generalizing y0 d hit with
  | nil =>
    have : (decide (y0 ≤ py) && decide (py < y0)) = false := by simp
    simp [drawRows, rowsAt, this]
  | cons b bs ih =>
    unfold drawRows
    rw [rowsAt_cons]
    split
    · next h =>
      rw [ih]
      simp only [Screen.pixel, hpy, dif_pos, Vector.getElem_set]
      by_cases he : py = y0
      · subst he
        have : rowsAt x0 (py + 1) bs px py = false := by simp [rowsAt]
        simp [this]
      · simp [he, Ne.symm he]
    · next h =>
      rw [ih, if_neg (by omega)]

/-- The collision of drawn rows: some pixel of the display was set and is hit. -/
theorem drawRows_hit (x0 y0 : Nat) (bs : List Byte) (d : Screen) (hit : Bool) :
    (drawRows x0 y0 bs (d, hit)).2 = true ↔
      hit = true ∨ ∃ px py, px < 64 ∧ py < 32 ∧ d.pixel px py = true ∧ rowsAt x0 y0 bs px py = true := by
  induction bs generalizing y0 d hit with
  | nil => 
    constructor
    · intro h; exact .inl h
    · rintro (h | ⟨px, py, -, -, -, h⟩)
      · exact h
      · simp [rowsAt] at h; omega
  | cons b bs ih =>
    unfold drawRows
    split
    · next hy =>
      rw [ih, Bool.or_eq_true, and_ne_zero_iff]
      constructor
      · rintro ((h | ⟨k, hk, ha, hb⟩) | ⟨px, py, hx, hpy, hp, hr⟩)
        · exact .inl h
        · refine .inr ⟨k, y0, hk, hy, ?_, ?_⟩
          · simpa [Screen.pixel, hy] using ha
          · rw [rowsAt_cons, if_pos rfl]; exact hb
        · have hlt : y0 + 1 ≤ py := by
            simp only [rowsAt, Bool.and_eq_true, decide_eq_true_eq] at hr; exact hr.1.1
          refine .inr ⟨px, py, hx, hpy, ?_, ?_⟩
          · simpa [Screen.pixel, hpy, Vector.getElem_set, show y0 ≠ py by omega] using hp
          · rw [rowsAt_cons, if_neg (by omega)]; exact hr
      · rintro (h | ⟨px, py, hx, hpy, hp, hr⟩)
        · exact .inl (.inl h)
        · rw [rowsAt_cons] at hr
          by_cases he : py = y0
          · subst he
            rw [if_pos rfl] at hr
            exact .inl (.inr ⟨px, hx, by simpa [Screen.pixel, hpy] using hp, hr⟩)
          · rw [if_neg he] at hr
            refine .inr ⟨px, py, hx, hpy, ?_, hr⟩
            simpa [Screen.pixel, hpy, Vector.getElem_set, Ne.symm he] using hp
    · next hy =>
      rw [ih]
      have hn : ∀ px py, py < 32 → rowsAt x0 y0 (b :: bs) px py = rowsAt x0 (y0 + 1) bs px py := by
        intro px py h; rw [rowsAt_cons, if_neg (by omega)]
      constructor <;> rintro (h | ⟨px, py, hx, hpy, hp, hr⟩)
      · exact .inl h
      · exact .inr ⟨px, py, hx, hpy, hp, by rwa [hn px py hpy]⟩
      · exact .inl h
      · exact .inr ⟨px, py, hx, hpy, hp, by rwa [hn px py hpy] at hr⟩

/-- Two displays with the same pixels are the same. -/
theorem Screen.ext_pixel {d e : Screen} (h : ∀ px py, px < 64 → py < 32 → d.pixel px py = e.pixel px py) : d = e := by
  apply Vector.ext
  intro y hy
  apply BitVec.eq_of_getMsbD_eq
  intro x hx
  simpa [Screen.pixel, hy] using h x y hx hy

/-- A clear display has no pixel set. -/
theorem Screen.pixel_clear (px py : Nat) : Screen.pixel (Vector.replicate 32 0#64) px py = false := by
  unfold Screen.pixel
  split <;> simp

end Sys2Proof.Machine
end

