-- ==== Sys2Proof/Laws/Loader.lean ====
section
/-! SUPPORT. What construction does, said once: the three ranges of R52, and the two cases of the size check (R56). -/

namespace Sys2Proof.Machine

variable {font : Font} {program : List Byte} {initMem : Nat → Byte} {a : Nat}

/-- The font's range (R54). -/
theorem constructedByte_font (h : a < fontSize) : constructedByte font program initMem a = font[a] := dif_pos h

/-- The program's range (R57). -/
theorem constructedByte_program {k : Nat} (h : k < program.length) :
    constructedByte font program initMem (0x200 + k) = program[k] := by
  have hp : Config.progBase = 0x200 := rfl
  have hf : fontSize = 80 := rfl
  unfold constructedByte
  rw [dif_neg (by omega), if_pos (by omega)]
  simp [hp, h]

/-- Every other address (R58). -/
theorem constructedByte_initMem (h : fontSize ≤ a) (h' : a < 0x200 ∨ 0x200 + program.length ≤ a) :
    constructedByte font program initMem a = initMem a := by
  have hp : Config.progBase = 0x200 := rfl
  unfold constructedByte
  rw [dif_neg (by omega), if_neg (by omega)]

/-- A program that fits is accepted; memory reads as `constructedByte` at every address that exists. -/
theorem State.construct_ok {sh inc : Bool} (h : program.length ≤ 3216) :
    ∃ m : Memory, m.wf = true ∧ (∀ b < 4096, m.get b = constructedByte font program initMem b) ∧
      State.construct program initMem sh inc font = .next { State.reset with mem := m, cfg := ⟨sh, inc⟩ } := by
  refine ⟨Memory.ofImage (constructedByte font program initMem), Memory.ofImage_wf _, fun b hb => ?_, ?_⟩
  · rw [Memory.get_ofImage, if_pos (show b < Config.memSize from hb)]
  · exact if_neg (show ¬ 3216 < program.length by omega)

/-- A program that does not fit is refused with its length (R184). -/
theorem State.construct_tooLarge {sh inc : Bool} (h : 3216 < program.length) :
    State.construct program initMem sh inc font = .refused (.programTooLarge program.length) := if_pos h

end Sys2Proof.Machine
end

