-- ==== Sys2Proof/Laws/PerInstr.lean ====
section
/-! SUPPORT. Per instruction: its word matches its own row of the opcode map (30_encoding.md R78, columns mask and
match). -/

namespace Sys2Proof.Laws

theorem and_mask_nnn (op : Nibble) (r : Addr12) : encodeNNN op r &&& 0xF000#16 = encodeNNN op 0x000#12 := by
  have h : 0xF000#16 = encodeNNN 0xF#4 0x000#12 := rfl
  have h1 : op &&& 0xF#4 = op := BitVec.and_allOnes
  rw [h, and_encodeNNN, h1, BitVec.and_zero]

theorem and_mask_xnn (op : Nibble) (x : Reg) (nn : Byte) :
    encodeXNN op x nn &&& 0xF0FF#16 = encodeXNN op 0 nn := by
  have h : 0xF0FF#16 = encodeNNN 0xF#4 (0x0#4 ++ 0xFF#8) := rfl
  have h1 : op &&& 0xF#4 = op := BitVec.and_allOnes
  have h2 : nn &&& 0xFF#8 = nn := BitVec.and_allOnes
  have h3 : (regBits x ++ nn) &&& (0x0#4 ++ 0xFF#8) = (regBits x &&& 0x0#4) ++ (nn &&& 0xFF#8) := BitVec.and_append
  rw [h, encodeXNN, and_encodeNNN, h1, h3, h2, BitVec.and_zero]
  rfl

theorem and_mask_xyn (op : Nibble) (x y : Reg) (n : Nibble) :
    encodeXYN op x y n &&& 0xF00F#16 = encodeXYN op 0 0 n := by
  have h : 0xF00F#16 = encodeNNN 0xF#4 (0x0#4 ++ (0x0#4 ++ 0xF#4)) := rfl
  have h1 : op &&& 0xF#4 = op := BitVec.and_allOnes
  have h2 : n &&& 0xF#4 = n := BitVec.and_allOnes
  have h3 : (regBits x ++ (regBits y ++ n)) &&& (0x0#4 ++ (0x0#4 ++ 0xF#4)) =
      (regBits x &&& 0x0#4) ++ ((regBits y ++ n) &&& (0x0#4 ++ 0xF#4)) := BitVec.and_append
  have h4 : (regBits y ++ n) &&& (0x0#4 ++ 0xF#4) = (regBits y &&& 0x0#4) ++ (n &&& 0xF#4) := BitVec.and_append
  rw [h, encodeXYN, encodeXNN, and_encodeNNN, h1, h3, h4, h2, BitVec.and_zero, BitVec.and_zero]
  rfl

/-- The mask and the match value of an instruction's row in the opcode map (R78). -/
def rowOf : Instr → Word × Word
  | .cls => (0xFFFF#16, 0x00E0#16)
  | .ret => (0xFFFF#16, 0x00EE#16)
  | .sys _ => (0xF000#16, 0x0000#16)
  | .jp _ => (0xF000#16, 0x1000#16)
  | .call _ => (0xF000#16, 0x2000#16)
  | .seImm _ _ => (0xF000#16, 0x3000#16)
  | .sneImm _ _ => (0xF000#16, 0x4000#16)
  | .seReg _ _ => (0xF00F#16, 0x5000#16)
  | .ldImm _ _ => (0xF000#16, 0x6000#16)
  | .addImm _ _ => (0xF000#16, 0x7000#16)
  | .ldReg _ _ => (0xF00F#16, 0x8000#16)
  | .orReg _ _ => (0xF00F#16, 0x8001#16)
  | .andReg _ _ => (0xF00F#16, 0x8002#16)
  | .xorReg _ _ => (0xF00F#16, 0x8003#16)
  | .addReg _ _ => (0xF00F#16, 0x8004#16)
  | .subReg _ _ => (0xF00F#16, 0x8005#16)
  | .shr _ _ => (0xF00F#16, 0x8006#16)
  | .subnReg _ _ => (0xF00F#16, 0x8007#16)
  | .shl _ _ => (0xF00F#16, 0x800E#16)
  | .sneReg _ _ => (0xF00F#16, 0x9000#16)
  | .ldI _ => (0xF000#16, 0xA000#16)
  | .jpV0 _ => (0xF000#16, 0xB000#16)
  | .rnd _ _ => (0xF000#16, 0xC000#16)
  | .drw _ _ _ => (0xF000#16, 0xD000#16)
  | .skp _ => (0xF0FF#16, 0xE09E#16)
  | .sknp _ => (0xF0FF#16, 0xE0A1#16)
  | .ldVxDt _ => (0xF0FF#16, 0xF007#16)
  | .ldVxK _ => (0xF0FF#16, 0xF00A#16)
  | .ldDtVx _ => (0xF0FF#16, 0xF015#16)
  | .ldStVx _ => (0xF0FF#16, 0xF018#16)
  | .addI _ => (0xF0FF#16, 0xF01E#16)
  | .ldF _ => (0xF0FF#16, 0xF029#16)
  | .ldB _ => (0xF0FF#16, 0xF033#16)
  | .dump _ => (0xF0FF#16, 0xF055#16)
  | .load _ => (0xF0FF#16, 0xF065#16)

namespace RowMatch

/-- The instruction's word under its row's mask is its row's match value. -/
def Statement (i : Instr) : Prop := encode i &&& (rowOf i).1 = (rowOf i).2

theorem cls : Statement .cls := rfl
theorem ret : Statement .ret := rfl
theorem sys (nnn : Addr12) : Statement (.sys nnn) := and_mask_nnn _ _
theorem jp (nnn : Addr12) : Statement (.jp nnn) := and_mask_nnn _ _
theorem call (nnn : Addr12) : Statement (.call nnn) := and_mask_nnn _ _
theorem seImm (x : Reg) (nn : Byte) : Statement (.seImm x nn) := and_mask_nnn _ _
theorem sneImm (x : Reg) (nn : Byte) : Statement (.sneImm x nn) := and_mask_nnn _ _
theorem seReg (x : Reg) (y : Reg) : Statement (.seReg x y) := and_mask_xyn _ _ _ _
theorem ldImm (x : Reg) (nn : Byte) : Statement (.ldImm x nn) := and_mask_nnn _ _
theorem addImm (x : Reg) (nn : Byte) : Statement (.addImm x nn) := and_mask_nnn _ _
theorem ldReg (x : Reg) (y : Reg) : Statement (.ldReg x y) := and_mask_xyn _ _ _ _
theorem orReg (x : Reg) (y : Reg) : Statement (.orReg x y) := and_mask_xyn _ _ _ _
theorem andReg (x : Reg) (y : Reg) : Statement (.andReg x y) := and_mask_xyn _ _ _ _
theorem xorReg (x : Reg) (y : Reg) : Statement (.xorReg x y) := and_mask_xyn _ _ _ _
theorem addReg (x : Reg) (y : Reg) : Statement (.addReg x y) := and_mask_xyn _ _ _ _
theorem subReg (x : Reg) (y : Reg) : Statement (.subReg x y) := and_mask_xyn _ _ _ _
theorem shr (x : Reg) (y : Reg) : Statement (.shr x y) := and_mask_xyn _ _ _ _
theorem subnReg (x : Reg) (y : Reg) : Statement (.subnReg x y) := and_mask_xyn _ _ _ _
theorem shl (x : Reg) (y : Reg) : Statement (.shl x y) := and_mask_xyn _ _ _ _
theorem sneReg (x : Reg) (y : Reg) : Statement (.sneReg x y) := and_mask_xyn _ _ _ _
theorem ldI (nnn : Addr12) : Statement (.ldI nnn) := and_mask_nnn _ _
theorem jpV0 (nnn : Addr12) : Statement (.jpV0 nnn) := and_mask_nnn _ _
theorem rnd (x : Reg) (nn : Byte) : Statement (.rnd x nn) := and_mask_nnn _ _
theorem drw (x : Reg) (y : Reg) (n : Nibble) : Statement (.drw x y n) := and_mask_nnn _ _
theorem skp (x : Reg) : Statement (.skp x) := and_mask_xnn _ _ _
theorem sknp (x : Reg) : Statement (.sknp x) := and_mask_xnn _ _ _
theorem ldVxDt (x : Reg) : Statement (.ldVxDt x) := and_mask_xnn _ _ _
theorem ldVxK (x : Reg) : Statement (.ldVxK x) := and_mask_xnn _ _ _
theorem ldDtVx (x : Reg) : Statement (.ldDtVx x) := and_mask_xnn _ _ _
theorem ldStVx (x : Reg) : Statement (.ldStVx x) := and_mask_xnn _ _ _
theorem addI (x : Reg) : Statement (.addI x) := and_mask_xnn _ _ _
theorem ldF (x : Reg) : Statement (.ldF x) := and_mask_xnn _ _ _
theorem ldB (x : Reg) : Statement (.ldB x) := and_mask_xnn _ _ _
theorem dump (x : Reg) : Statement (.dump x) := and_mask_xnn _ _ _
theorem load (x : Reg) : Statement (.load x) := and_mask_xnn _ _ _

end RowMatch

end Sys2Proof.Laws
end

