-- ==== Sys2Proof/Laws/Step.lean ====
section
/-! SUPPORT. What a step can do, said once: the timers' own updates, the fetch, and the cases of R91. -/

namespace Sys2Proof.Machine

theorem byte_pred_toNat (b : Byte) (h : b ≠ 0#8) : (b - 1#8).toNat = b.toNat - 1 := by
  have : b.toNat ≠ 0 := fun e => h (BitVec.eq_of_toNat_eq e)
  rw [BitVec.toNat_sub_of_le]
  · rfl
  · rw [BitVec.le_def]; show 1 ≤ _; omega

theorem State.stAfter_toNat (s : State) : s.stAfter.toNat = s.st.toNat - 1 := by
  have := s.st.isLt
  simp [State.stAfter, BitVec.toNat_ofNat]
  omega

/-- The sound timer's own update, as one record update. -/
theorem State.tickSound_eq (s : State) : s.tickSound = { s with st := s.stAfter } := by
  unfold State.tickSound
  split
  · next h =>
    have : s.stAfter = s.st := by apply BitVec.eq_of_toNat_eq; rw [s.stAfter_toNat, h]; rfl
    rw [this]
  · next h =>
    have : s.st - 1#8 = s.stAfter := by apply BitVec.eq_of_toNat_eq; rw [s.stAfter_toNat, byte_pred_toNat _ h]
    rw [← this]; rfl

theorem State.tickDelay_eq (s : State) : s.tickDelay = { s with dt := s.tickDelay.dt } := by
  unfold State.tickDelay; split <;> rfl

theorem State.tickDelay_dt_toNat (s : State) : s.tickDelay.dt.toNat = s.dt.toNat - 1 := by
  unfold State.tickDelay
  split
  · next h => rw [h]; rfl
  · next h => exact byte_pred_toNat _ h

theorem wordOfBytes_toNat (hi lo : Byte) : (wordOfBytes hi lo).toNat = hi.toNat * 256 + lo.toNat := by
  have h := BitVec.toNat_append hi lo
  rwa [← Nat.shiftLeft_add_eq_or_of_lt lo.isLt, Nat.shiftLeft_eq] at h

/-- A fetch inside memory (40_cycle.md R93). -/
theorem State.fetch_ok {s : State} (h : s.pc.toNat + 1 < 4096) :
    s.fetch = .ok (wordOfBytes (s.readByte s.pc.toNat) (s.readByte (s.pc.toNat + 1))) := by
  unfold State.fetch
  rw [outOfRange_eq_none.mpr (.inr (by simp only [Config.memSize]; omega))]

/-- The check of a block at `a`, resolved: the lowest missing address is `a` or the first past memory. -/
theorem outOfRange_past {a n : Nat} (h : 0 < n) (h' : 4096 < a + n) : outOfRange a n = some (max a 4096) := by
  refine outOfRange_eq_some.mpr ⟨by simp only [Config.memSize]; omega, by omega, by omega, fun b hb hlt => ?_⟩
  simp only [Config.memSize]; omega

/-- A fetch that reaches past memory (R93). -/
theorem State.fetch_bad {s : State} (h : 4096 ≤ s.pc.toNat + 1) :
    s.fetch = .error (.memOutOfRange (max s.pc.toNat 4096)) := by
  unfold State.fetch
  rw [outOfRange_past (by omega) (by omega)]

/-- Everything a step can do (R91, R92, R93, R96). -/
theorem step_cases (s : State) :
    (s.halted = true ∧ step s = .next s) ∨
    (s.halted = false ∧ s.dt ≠ 0#8 ∧ step s = .next { s with st := s.stAfter, dt := s.tickDelay.dt }) ∨
    (s.halted = false ∧ s.dt = 0#8 ∧ 4096 ≤ s.pc.toNat + 1 ∧ step s = .next
      { s with st := s.stAfter, halted := true, faultCause := some (.memOutOfRange (max s.pc.toNat 4096)) }) ∨
    (∃ i, s.RunsNext i ∧ step s = exec i { s with st := s.stAfter }) ∨
    (s.halted = false ∧ s.dt = 0#8 ∧ s.pc.toNat + 1 < 4096 ∧
      decodeWord (wordOfBytes (s.readByte s.pc.toNat) (s.readByte (s.pc.toNat + 1))) = none ∧
      step s = .next { s with
        st := s.stAfter, pc := s.pc + 2#16
        diag := wordOfBytes (s.readByte s.pc.toNat) (s.readByte (s.pc.toNat + 1)) :: s.diag }) := by
  unfold step cycle
  rw [State.tickSound_eq]
  by_cases hh : s.halted = true
  · exact .inl ⟨hh, by rw [if_pos hh]⟩
  right
  rw [if_neg hh]
  have hf : s.halted = false := by simpa using hh
  by_cases hd : s.dt = 0#8
  · right
    rw [if_pos hd]
    unfold executeOne
    by_cases hp : s.pc.toNat + 1 < 4096
    · right
      rw [State.fetch_ok (s := { s with st := s.stAfter }) hp]
      show (∃ i, _ ∧ execWord (wordOfBytes (s.readByte s.pc.toNat) (s.readByte (s.pc.toNat + 1))) _ = _) ∨
        (_ ∧ _ ∧ _ ∧ _ ∧ execWord (wordOfBytes (s.readByte s.pc.toNat) (s.readByte (s.pc.toNat + 1))) _ = _)
      unfold execWord
      cases hw : decodeWord (wordOfBytes (s.readByte s.pc.toNat) (s.readByte (s.pc.toNat + 1))) with
      | some i => exact .inl ⟨i, ⟨hf, hd, hp, hw⟩, rfl⟩
      | none => exact .inr ⟨hf, hd, hp, rfl, rfl⟩
    · left
      refine ⟨hf, hd, by omega, ?_⟩
      rw [State.fetch_bad (s := { s with st := s.stAfter }) (by show 4096 ≤ s.pc.toNat + 1; omega)]
      rfl
  · left
    refine ⟨hf, hd, ?_⟩
    rw [if_neg hd]
    unfold State.tickDelay
    rw [if_neg hd, if_neg hd]
    rfl

/-- A run of one step more, when the first step answers a next state, of any machine. -/
theorem run_succ (M : Host.Core) {s s' : M.State} (n : Nat) (h : M.step s = .next s') :
    M.run (n + 1) s = M.run n s' := by
  rw [Host.Core.run, h]

/-- The same for this machine. -/
theorem core_run_succ {s s' : State} (n : Nat) (h : step s = .next s') : core.run (n + 1) s = core.run n s' :=
  run_succ core n h

/-- A sequence of transactions, when the first answers a next state. -/
theorem runTransactions_cons {s s' : State} (t : Transaction) (ts : List Transaction) (h : transact s t = .next s') :
    runTransactions s (t :: ts) = runTransactions s' ts := by
  rw [runTransactions, h]

end Sys2Proof.Machine
end

