-- ==== Sys2Proof/Laws/Words.lean ====
section
/-! SUPPORT. A word written by arithmetic on its fields is the encoder's word, and decodes by the selection of its
high nibble. -/

namespace Sys2Proof.Machine

theorem wordNNN_eq (op : Nat) (nnn : Addr12) : wordNNN op nnn = encodeNNN (BitVec.ofNat 4 op) nnn := by
  apply BitVec.eq_of_toNat_eq
  rw [encodeNNN_toNat, wordNNN, BitVec.toNat_ofNat, BitVec.toNat_ofNat]
  omega

theorem wordXNN_eq (op : Nat) (x : Reg) (nn : Nat) (hn : nn < 256) :
    wordXNN op x nn = encodeXNN (BitVec.ofNat 4 op) x (BitVec.ofNat 8 nn) := by
  apply BitVec.eq_of_toNat_eq
  rw [encodeXNN_toNat, wordXNN, BitVec.toNat_ofNat, BitVec.toNat_ofNat, BitVec.toNat_ofNat]
  omega

theorem wordXYN_eq (op : Nat) (x y : Reg) (n : Nat) (hn : n < 16) :
    wordXYN op x y n = encodeXYN (BitVec.ofNat 4 op) x y (BitVec.ofNat 4 n) := by
  apply BitVec.eq_of_toNat_eq
  rw [encodeXYN_toNat, wordXYN, BitVec.toNat_ofNat, BitVec.toNat_ofNat, BitVec.toNat_ofNat]
  omega

@[simp] theorem opOf_encodeXNN (op : Nibble) (x : Reg) (nn : Byte) : opOf (encodeXNN op x nn) = op :=
  opOf_encodeNNN op _

@[simp] theorem opOf_encodeXYN (op : Nibble) (x y : Reg) (n : Nibble) : opOf (encodeXYN op x y n) = op :=
  opOf_encodeNNN op _

/-- Decoding a word of the form op, nnn. -/
theorem decodeWord_wordNNN (op : Nat) (nnn : Addr12) :
    decodeWord (wordNNN op nnn) = select (BitVec.ofNat 4 op) (fieldsOf (encodeNNN (BitVec.ofNat 4 op) nnn)) := by
  rw [wordNNN_eq op nnn, decodeWord_eq_select, opOf_encodeNNN]

/-- Decoding a word of the form op, x, nn. -/
theorem decodeWord_wordXNN (op : Nat) (x : Reg) (nn : Nat) (hn : nn < 256) :
    decodeWord (wordXNN op x nn) =
      select (BitVec.ofNat 4 op) (fieldsOf (encodeXNN (BitVec.ofNat 4 op) x (BitVec.ofNat 8 nn))) := by
  rw [wordXNN_eq op x nn hn, decodeWord_eq_select, opOf_encodeXNN]

/-- Decoding a word of the form op, x, y, n. -/
theorem decodeWord_wordXYN (op : Nat) (x y : Reg) (n : Nat) (hn : n < 16) :
    decodeWord (wordXYN op x y n) =
      select (BitVec.ofNat 4 op) (fieldsOf (encodeXYN (BitVec.ofNat 4 op) x y (BitVec.ofNat 4 n))) := by
  rw [wordXYN_eq op x y n hn, decodeWord_eq_select, opOf_encodeXYN]

end Sys2Proof.Machine
end

