-- ==== Sys2Proof/Tests/Slice0.lean ====
section
/-! SUPPORT. The model's own tests: decoding of words written out from 30_encoding.md R71 and R78, single steps from
95_test_vectors.md (the number of each vector in its comment), and a witness for the hypotheses of every statement. -/

namespace Sys2Proof.Tests

open Sys2Proof.Machine

/-! ## Syntax, decode and encode -/

theorem test_wellFormed_refuses_sys_0E0 : ¬ WellFormed (.sys 0x0E0#12) := by decide
theorem test_wellFormed_refuses_sys_0EE : ¬ WellFormed (.sys 0x0EE#12) := by decide
theorem test_wellFormed_accepts : WellFormed (.sys 0x0EF#12) ∧ WellFormed (.drw 15 0 0#4) ∧ WellFormed .cls := by decide

/-- Control flow. The bits are op, then x, y, n or nnn (R71), the patterns 00E0, 00EE, 0NNN, 1NNN, 2NNN, BNNN (R78). -/
theorem test_decode_control :
    decodeWord 0b0000000011100000#16 = some .cls ∧ decodeWord 0b0000000011101110#16 = some .ret ∧
    decodeWord 0b0000000100100011#16 = some (.sys 0x123#12) ∧ decodeWord 0b0001101010111100#16 = some (.jp 0xABC#12) ∧
    decodeWord 0b0010101010111100#16 = some (.call 0xABC#12) ∧
    decodeWord 0b1011001100000000#16 = some (.jpV0 0x300#12) := by decide

/-- Skips: 3XNN, 4XNN, 5XY0, 9XY0 (R78), x before y (R71). -/
theorem test_decode_skips :
    decodeWord 0b0011000101000010#16 = some (.seImm 1 0x42#8) ∧ decodeWord 0b0100000101000010#16 = some (.sneImm 1 0x42#8) ∧
    decodeWord 0b0101000100100000#16 = some (.seReg 1 2) ∧ decodeWord 0b1001000100100000#16 = some (.sneReg 1 2) := by
  decide

/-- Loads and the ALU: 6XNN, 7XNN, 8XY0 to 8XY7 and 8XYE (R78). -/
theorem test_decode_alu :
    decodeWord 0b0110101011111111#16 = some (.ldImm 10 0xFF#8) ∧ decodeWord 0b0111111100000001#16 = some (.addImm 15 0x01#8) ∧
    decodeWord 0b1000000100100000#16 = some (.ldReg 1 2) ∧ decodeWord 0b1000000100100001#16 = some (.orReg 1 2) ∧
    decodeWord 0b1000000100100010#16 = some (.andReg 1 2) ∧ decodeWord 0b1000000100100011#16 = some (.xorReg 1 2) ∧
    decodeWord 0b1000000100100100#16 = some (.addReg 1 2) ∧ decodeWord 0b1000000100100101#16 = some (.subReg 1 2) ∧
    decodeWord 0b1000000100100110#16 = some (.shr 1 2) ∧ decodeWord 0b1000000100100111#16 = some (.subnReg 1 2) ∧
    decodeWord 0b1000000100101110#16 = some (.shl 1 2) := by decide

/-- Address, random and draw: ANNN, FX1E, CXNN, DXYN (R78). -/
theorem test_decode_address_random_draw :
    decodeWord 0b1010000100100011#16 = some (.ldI 0x123#12) ∧ decodeWord 0b1111000100011110#16 = some (.addI 1) ∧
    decodeWord 0b1100001100001111#16 = some (.rnd 3 0x0F#8) ∧
    decodeWord 0b1101101010110101#16 = some (.drw 10 11 5#4) := by decide

/-- Keys and timers: EX9E, EXA1, FX07, FX0A, FX15, FX18 (R78). -/
theorem test_decode_keys_timers :
    decodeWord 0b1110000110011110#16 = some (.skp 1) ∧ decodeWord 0b1110000110100001#16 = some (.sknp 1) ∧
    decodeWord 0b1111000100000111#16 = some (.ldVxDt 1) ∧ decodeWord 0b1111001100001010#16 = some (.ldVxK 3) ∧
    decodeWord 0b1111000000010101#16 = some (.ldDtVx 0) ∧ decodeWord 0b1111000100011000#16 = some (.ldStVx 1) := by decide

/-- Memory operations: FX29, FX33, FX55, FX65 (R78). -/
theorem test_decode_memory :
    decodeWord 0b1111000100101001#16 = some (.ldF 1) ∧ decodeWord 0b1111101000110011#16 = some (.ldB 10) ∧
    decodeWord 0b1111001001010101#16 = some (.dump 2) ∧ decodeWord 0b1111001001100101#16 = some (.load 2) := by decide

/-- Unimplemented words (R80; T5 to T9, T11), and 5121 under the other mask (T10). -/
theorem test_decode_unimplemented :
    decodeWord 0x8008#16 = none ∧ decodeWord 0x800F#16 = none ∧ decodeWord 0xE0FF#16 = none ∧
    decodeWord 0xF000#16 = none ∧ decodeWord 0x5121#16 = none ∧ decodeWord 0x9121#16 = none ∧
    decodeWith 0xF000#16 0x5121#16 = some (.seReg 1 2) := by decide

/-- The high byte stands at the lower address (R60, R70), and a lone byte is no instruction. -/
theorem test_decode_bytes :
    decode [0x12#8, 0x06#8, 0xFF#8] = .ok (.jp 0x206#12, [0xFF#8]) ∧ decode [0x12#8] = .error .truncated ∧
    decode [0x80#8, 0x08#8] = .error (.unimplemented 0x8008#16) := by decide

/-- "Bytes: F3 0A E3 9E 12 04 12 06" (95_test_vectors.md P5). -/
theorem test_encode_bytes :
    encodeBytes (.ldVxK 3) ++ encodeBytes (.skp 3) ++ encodeBytes (.jp 0x204#12) ++ encodeBytes (.jp 0x206#12) =
      [0xF3#8, 0x0A#8, 0xE3#8, 0x9E#8, 0x12#8, 0x04#8, 0x12#8, 0x06#8] := by decide

theorem test_decodeTableWord :
    decodeTableWord 16 0xD121 = some (.drw 1 2 1#4) ∧ decodeTableWord 16 0x00EE = some .ret ∧
    decodeTableWord 16 0x8008 = none := by decide

/-! ## Steps -/

/-- The start of the vectors: the state after reset under overrides, with the word at pc. -/
def boot (w : Nat) (overrides : State → State) : State := (overrides State.reset).withFetchWord 16 w

/-- The step answers a next state, of which `p` holds. -/
def after (s : State) (p : State → Bool) : Bool :=
  match step s with
  | .next t => p t
  | .fault _ => false
  | .refused _ => false

/-- Two registers set. -/
def with2 (x : Reg) (a : Byte) (y : Reg) (b : Byte) (s : State) : State := (s.setReg x a).setReg y b

/-- The policies set. -/
def policy (shiftSrcVy loadstoreIncI : Bool) (s : State) : State := { s with cfg := ⟨shiftSrcVy, loadstoreIncI⟩ }

/-- The program counter and the diagnostics, as in the tables. -/
def at' (pc : Word) (t : State) : Bool := t.pc == pc && !t.halted && t.diag.isEmpty

/-- T1. -/
theorem test_cls : after (boot 0x00E0 (fun s => s.setDisp (s.disp.set 3 0xFF#64)))
    (fun t => at' 0x202#16 t && t.disp == Vector.replicate 32 0#64) = true := by decide

/-- T2. -/
theorem test_ret_underflow : after (boot 0x00EE id)
    (fun t => t.halted && t.faultCause == some (.stackUnderflow 0x200#16) && t.pc == 0x200#16) = true := by decide

/-- R101: pop, then + 2 (as T15). -/
theorem test_ret : after (boot 0x00EE (fun s => s.setStack [0x300#16, 0x400#16]))
    (fun t => at' 0x302#16 t && t.stack == [0x400#16]) = true := by decide

/-- T3: no diagnostic. -/
theorem test_sys : after (boot 0x0123 id) (at' 0x202#16) = true := by decide

/-- T12. -/
theorem test_jp : after (boot 0x1ABC id) (fun t => at' 0xABC#16 t && t.stack.isEmpty) = true := by decide

/-- T13: an odd target. -/
theorem test_jp_odd : after (boot 0x1201 id) (at' 0x201#16) = true := by decide

/-- T14. -/
theorem test_call : after (boot 0x2ABC id) (fun t => at' 0xABC#16 t && t.stack == [0x200#16]) = true := by decide

/-- The last step of T17: 16 entries, `STACK_LIMIT` = 16. -/
theorem test_call_limit : callWith (some 16) 0x200#12 (State.reset.setStack (List.replicate 16 0x200#16)) =
    .next ((State.reset.setStack (List.replicate 16 0x200#16)).raise (.stackOverflow 0x200#16)) := by rfl

/-- T18 and T19: the sum is not reduced to 12 bits. -/
theorem test_jpV0 : after (boot 0xB300 (fun s => s.setReg 0 0x10#8)) (at' 0x310#16) = true ∧
    after (boot 0xBFFF (fun s => s.setReg 0 0xFF#8)) (at' 0x10FE#16) = true := by decide

/-- T22, T23. -/
theorem test_seImm : after (boot 0x3142 (fun s => s.setReg 1 0x42#8)) (at' 0x204#16) = true ∧
    after (boot 0x3142 (fun s => s.setReg 1 0x41#8)) (at' 0x202#16) = true := by decide

/-- T24, T25. -/
theorem test_sneImm : after (boot 0x4142 (fun s => s.setReg 1 0x41#8)) (at' 0x204#16) = true ∧
    after (boot 0x4142 (fun s => s.setReg 1 0x42#8)) (at' 0x202#16) = true := by decide

/-- T26, T27. -/
theorem test_seReg : after (boot 0x5120 (with2 1 0x03#8 2 0x03#8)) (at' 0x204#16) = true ∧
    after (boot 0x5120 (with2 1 0x03#8 2 0x04#8)) (at' 0x202#16) = true := by decide

/-- T28, T29. -/
theorem test_sneReg : after (boot 0x9120 (with2 1 0x03#8 2 0x04#8)) (at' 0x204#16) = true ∧
    after (boot 0x9120 (with2 1 0x03#8 2 0x03#8)) (at' 0x202#16) = true := by decide

/-- T32. -/
theorem test_ldImm : after (boot 0x6AFF id) (fun t => at' 0x202#16 t && t.reg 10 == 0xFF#8) = true := by decide

/-- T33 and T34: it wraps, and VF is no flag. -/
theorem test_addImm : after (boot 0x71FF (with2 1 0x02#8 15 0x07#8))
    (fun t => at' 0x202#16 t && t.reg 1 == 0x01#8 && t.reg 15 == 0x07#8) = true ∧
    after (boot 0x7F01 (fun s => s.setReg 15 0xFF#8)) (fun t => t.reg 15 == 0x00#8) = true := by decide

/-- T35. -/
theorem test_ldReg : after (boot 0x8120 (fun s => s.setReg 2 0x42#8))
    (fun t => at' 0x202#16 t && t.reg 1 == 0x42#8) = true := by decide

/-- T36: VF is left. -/
theorem test_orReg : after (boot 0x8121 (fun s => (with2 1 0xF0#8 2 0x0F#8 s).setReg 15 0x55#8))
    (fun t => at' 0x202#16 t && t.reg 1 == 0xFF#8 && t.reg 15 == 0x55#8) = true := by decide

/-- T37. -/
theorem test_andReg : after (boot 0x8122 (fun s => (with2 1 0xF0#8 2 0x3C#8 s).setReg 15 0x55#8))
    (fun t => at' 0x202#16 t && t.reg 1 == 0x30#8 && t.reg 15 == 0x55#8) = true := by decide

/-- T38. -/
theorem test_xorReg : after (boot 0x8123 (fun s => (with2 1 0xFF#8 2 0x0F#8 s).setReg 15 0x55#8))
    (fun t => at' 0x202#16 t && t.reg 1 == 0xF0#8 && t.reg 15 == 0x55#8) = true := by decide

/-- E1 and T39: the sum 0x101 carries, the sum 255 does not. -/
theorem test_addReg : after (boot 0x8124 (with2 1 0xFF#8 2 0x02#8))
    (fun t => at' 0x202#16 t && t.reg 1 == 0x01#8 && t.reg 15 == 0x01#8 && t.reg 2 == 0x02#8) = true ∧
    after (boot 0x8124 (with2 1 0x7F#8 2 0x80#8)) (fun t => t.reg 1 == 0xFF#8 && t.reg 15 == 0x00#8) = true := by decide

/-- T41 and T43: the flag is written last, and VF is read before it. -/
theorem test_addReg_vf : after (boot 0x8F24 (with2 15 0xFF#8 2 0x02#8)) (fun t => t.reg 15 == 0x01#8) = true ∧
    after (boot 0x81F4 (with2 1 0x01#8 15 0xFF#8)) (fun t => t.reg 1 == 0x00#8 && t.reg 15 == 0x01#8) = true := by decide

/-- E2 and T44. -/
theorem test_subReg : after (boot 0x8125 (with2 1 0x05#8 2 0x0A#8))
    (fun t => at' 0x202#16 t && t.reg 1 == 0xFB#8 && t.reg 15 == 0x00#8) = true ∧
    after (boot 0x8125 (with2 1 0x07#8 2 0x07#8)) (fun t => t.reg 1 == 0x00#8 && t.reg 15 == 0x01#8) = true := by decide

/-- T46. -/
theorem test_subReg_vf : after (boot 0x8F25 (with2 15 0x03#8 2 0x01#8)) (fun t => t.reg 15 == 0x01#8) = true := by decide

/-- E3 and T51, both policies: V2 is not written. -/
theorem test_shr : after (boot 0x8126 (fun s => policy true false (with2 1 0x05#8 2 0x03#8 s)))
    (fun t => at' 0x202#16 t && t.reg 1 == 0x01#8 && t.reg 15 == 0x01#8 && t.reg 2 == 0x03#8) = true ∧
    after (boot 0x8126 (fun s => policy false false (with2 1 0x04#8 2 0x03#8 s)))
    (fun t => t.reg 1 == 0x02#8 && t.reg 15 == 0x00#8 && t.reg 2 == 0x03#8) = true := by decide

/-- T53, both policies. -/
theorem test_shr_vf : after (boot 0x8F16 (fun s => policy false false (with2 15 0x03#8 1 0x02#8 s)))
    (fun t => t.reg 15 == 0x01#8) = true ∧
    after (boot 0x8F16 (fun s => policy true false (with2 15 0x03#8 1 0x02#8 s))) (fun t => t.reg 15 == 0x00#8) = true := by
  decide

/-- T47 and T48. -/
theorem test_subnReg : after (boot 0x8127 (with2 1 0x05#8 2 0x0A#8))
    (fun t => at' 0x202#16 t && t.reg 1 == 0x05#8 && t.reg 15 == 0x01#8) = true ∧
    after (boot 0x8127 (with2 1 0x0A#8 2 0x05#8)) (fun t => t.reg 1 == 0xFB#8 && t.reg 15 == 0x00#8) = true := by decide

/-- T52, both policies. -/
theorem test_shl : after (boot 0x812E (fun s => policy false false (with2 1 0x81#8 2 0x40#8 s)))
    (fun t => at' 0x202#16 t && t.reg 1 == 0x02#8 && t.reg 15 == 0x01#8) = true ∧
    after (boot 0x812E (fun s => policy true false (with2 1 0x81#8 2 0x40#8 s)))
    (fun t => t.reg 1 == 0x80#8 && t.reg 15 == 0x00#8) = true := by decide

/-- T54, both policies. -/
theorem test_shl_vf : after (boot 0x8F1E (fun s => policy false false (with2 15 0x80#8 1 0x01#8 s)))
    (fun t => t.reg 15 == 0x01#8) = true ∧
    after (boot 0x8F1E (fun s => policy true false (with2 15 0x80#8 1 0x01#8 s))) (fun t => t.reg 15 == 0x00#8) = true := by
  decide

/-- T57. -/
theorem test_ldI : after (boot 0xA123 id) (fun t => at' 0x202#16 t && t.i == 0x123#16) = true := by decide

/-- T58 and T59. -/
theorem test_addI : after (boot 0xF11E (fun s => (s.setI 0x0FFF#16).setReg 1 0x01#8))
    (fun t => at' 0x202#16 t && t.i == 0x1000#16 && t.reg 15 == 0x00#8) = true ∧
    after (boot 0xF11E (fun s => (s.setI 0xFFFF#16).setReg 1 0x01#8)) (fun t => t.i == 0x0000#16) = true := by decide

/-- T62: whatever is drawn. -/
theorem test_rnd_mask_zero : ∃ t, exec (.rnd 3 0x00#8) (State.reset.setReg 3 0x55#8) = .next t ∧ t.reg 3 = 0x00#8 :=
  ⟨_, rfl, BitVec.and_zero⟩

/-- E4, E5: the first draw at (60, 0) is clipped; its row is the columns 60 to 63. -/
theorem test_drw_clips : after (boot 0xD121 (fun s => (with2 1 60#8 2 0#8 s).setI 0x300#16 |>.storeBytes 0x300 [0xFF#8]))
    (fun t => at' 0x202#16 t && t.disp == (Vector.replicate 32 0#64).set 0 0xF#64 && t.reg 15 == 0x00#8) = true := by decide

/-- T67 and T68: two bytes at 0xFFF fault before any change, one byte does not. -/
theorem test_drw_edge : after (boot 0xD122 (fun s => s.setI 0xFFF#16))
    (fun t => t.faultCause == some (.memOutOfRange 0x1000) && t.pc == 0x200#16) = true ∧
    after (boot 0xD121 (fun s => s.setI 0xFFF#16)) (at' 0x202#16) = true := by decide

/-- T73, T74 and T77. -/
theorem test_skp : after (boot 0xE19E (fun s => (s.setReg 1 5#8).press 5#4)) (at' 0x204#16) = true ∧
    after (boot 0xE19E (fun s => s.setReg 1 5#8)) (at' 0x202#16) = true ∧
    after (boot 0xE19E (fun s => (s.setReg 1 16#8).press 0#4)) (at' 0x202#16) = true := by decide

/-- T75, T76 and T78. -/
theorem test_sknp : after (boot 0xE1A1 (fun s => s.setReg 1 5#8)) (at' 0x204#16) = true ∧
    after (boot 0xE1A1 (fun s => (s.setReg 1 5#8).press 5#4)) (at' 0x202#16) = true ∧
    after (boot 0xE1A1 (fun s => (s.setReg 1 16#8).press 0#4)) (at' 0x204#16) = true := by decide

/-- T79. -/
theorem test_ldVxDt : after (boot 0xF107 (fun s => s.setReg 1 9#8))
    (fun t => at' 0x202#16 t && t.reg 1 == 0#8) = true := by decide

/-- E7, T83: the first execution arms; armed, it waits; after the presses 3 and 9 it takes the last key. -/
theorem test_ldVxK : after (boot 0xF30A id) (fun t => at' 0x200#16 t && t.armed && t.reg 3 == 0#8) = true ∧
    after (boot 0xF30A (fun s => s.setWait true false)) (fun t => at' 0x200#16 t && t.armed && t.reg 3 == 0#8) = true ∧
    after (boot 0xF30A (fun s => ((s.setWait true false).press 3#4).press 9#4))
    (fun t => at' 0x202#16 t && t.reg 3 == 9#8 && !t.armed && !t.keyEvent) = true := by decide

/-- T84 and T85: a released key completes; a key held from before arming leaves no event. -/
theorem test_ldVxK_released : after (boot 0xF30A (fun s => ((s.setWait true false).press 4#4).release 4#4))
    (fun t => at' 0x202#16 t && t.reg 3 == 4#8) = true ∧
    after (boot 0xF30A (fun s => s.press 4#4)) (fun t => at' 0x200#16 t && t.armed && !t.keyEvent) = true := by decide

/-- E9: DT = 3 after FX15. -/
theorem test_ldDtVx : after (boot 0xF015 (fun s => s.setReg 0 3#8)) (fun t => at' 0x202#16 t && t.dt == 3#8) = true := by
  decide

/-- T82: the decrement is before the write. -/
theorem test_ldStVx : after (boot 0xF118 (fun s => (s.setSt 3#8).setReg 1 9#8))
    (fun t => at' 0x202#16 t && t.st == 9#8) = true := by decide

/-- T87. -/
theorem test_ldF : after (boot 0xF129 (fun s => s.setReg 1 0x1F#8)) (fun t => at' 0x202#16 t && t.i == 0x4B#16) = true := by
  decide

/-- E6. -/
theorem test_ldB : after (boot 0xFA33 (fun s => (s.setReg 10 157#8).setI 0x300#16))
    (fun t => at' 0x202#16 t && t.i == 0x300#16 && t.mem.getMany 0x300 3 == [1#8, 5#8, 7#8]) = true := by decide

/-- T91. -/
theorem test_ldB_edge : after (boot 0xF133 (fun s => (s.setReg 1 0x9D#8).setI 0xFFE#16))
    (fun t => t.faultCause == some (.memOutOfRange 0x1000) && t.mem.getMany 0xFFE 2 == [0#8, 0#8]) = true := by decide

/-- T92, both policies. -/
theorem test_dump : after (boot 0xF255 (fun s => ((with2 0 1#8 1 2#8 s).setReg 2 3#8).setI 0x300#16))
    (fun t => at' 0x202#16 t && t.mem.getMany 0x300 4 == [1#8, 2#8, 3#8, 0#8] && t.i == 0x300#16) = true ∧
    after (boot 0xF255 (fun s => policy false true (((with2 0 1#8 1 2#8 s).setReg 2 3#8).setI 0x300#16)))
    (fun t => t.mem.getMany 0x300 4 == [1#8, 2#8, 3#8, 0#8] && t.i == 0x303#16) = true := by decide

/-- T97 and T98. -/
theorem test_dump_edge : after (boot 0xF255 (fun s => s.setI 0xFFE#16))
    (fun t => t.faultCause == some (.memOutOfRange 0x1000) && t.i == 0xFFE#16) = true ∧
    after (boot 0xF055 (fun s => (s.setReg 0 0x12#8).setI 0x200#16))
    (fun t => at' 0x202#16 t && t.readByte 0x200 == 0x12#8) = true := by decide

/-- T95, both policies. -/
theorem test_load : after (boot 0xF265 (fun s => (s.storeBytes 0x300 [7#8, 8#8, 9#8, 10#8]).setI 0x300#16))
    (fun t => at' 0x202#16 t && t.v.toList.take 4 == [7#8, 8#8, 9#8, 0#8] && t.i == 0x300#16) = true ∧
    after (boot 0xF265 (fun s => policy false true ((s.storeBytes 0x300 [7#8, 8#8, 9#8, 10#8]).setI 0x300#16)))
    (fun t => t.v.toList.take 4 == [7#8, 8#8, 9#8, 0#8] && t.i == 0x303#16) = true := by decide

/-- T5: the diagnostic, and pc + 2. -/
theorem test_unimplemented : after (boot 0x8008 id)
    (fun t => t.pc == 0x202#16 && t.diag == [0x8008#16] && !t.halted) = true := by decide

/-- T20 and T21: the last word of memory, and the two fetch faults. -/
theorem test_fetch_edge : after (State.reset.setPc 0xFFE#16) (at' 0x1000#16) = true ∧
    after (State.reset.setPc 0xFFF#16) (fun t => t.faultCause == some (.memOutOfRange 0x1000) && t.pc == 0xFFF#16) = true ∧
    after (State.reset.setPc 0x10FE#16) (fun t => t.faultCause == some (.memOutOfRange 0x10FE)) = true := by decide

/-- T99, T101 and T102: the two timers, and a halted core. -/
theorem test_timers : after (State.reset.setDt 2#8) (fun t => t.dt == 1#8 && t.st == 0#8 && t.pc == 0x200#16) = true ∧
    after ((State.reset.setDt 1#8).setSt 1#8) (fun t => t.dt == 0#8 && t.st == 0#8 && t.pc == 0x200#16) = true ∧
    after ((State.reset.setSt 4#8).raise (.stackUnderflow 0x200#16)) (fun t => t.st == 4#8) = true := by decide

/-- T100 and T103. -/
theorem test_sound : after (boot 0x6105 (fun s => s.setSt 1#8))
    (fun t => at' 0x202#16 t && t.st == 0#8 && t.reg 1 == 5#8) = true ∧
    after (boot 0x00EE (fun s => s.setSt 4#8)) (fun t => t.halted && t.st == 3#8) = true := by decide

/-- The host's question: on the state after reset only memory changes. -/
theorem test_withFetchWord : State.reset.withFetchWord 16 0xD121 =
    { State.reset with mem := [(0x200, 0xD1#8), (0x201, 0x21#8)] } := by decide

/-- The rows 2, 7, C and F of R55's table, at the addresses it gives. -/
theorem test_font : State.reset.mem.getMany 0x00A 5 = [0xF0#8, 0x10#8, 0xF0#8, 0x80#8, 0xF0#8] ∧
    State.reset.mem.getMany 0x023 5 = [0xF0#8, 0x10#8, 0x20#8, 0x40#8, 0x40#8] ∧
    State.reset.mem.getMany 0x03C 5 = [0xF0#8, 0x80#8, 0x80#8, 0x80#8, 0xF0#8] ∧
    State.reset.mem.getMany 0x04B 5 = [0xF0#8, 0x80#8, 0xF0#8, 0x80#8, 0x80#8] := by decide

/-- R55: `FONT` is a parameter; the byte at 0x04F of a core with another font is that font's, the byte after it `INIT_MEM`. -/
theorem test_font_parameter :
    constructedByte (Vector.replicate _ 0x3C#8) [] (fun _ => 0xAA#8) 0x04F = 0x3C#8 ∧
    constructedByte (Vector.replicate _ 0x3C#8) [] (fun _ => 0xAA#8) 0x050 = 0xAA#8 := by decide

/-- R32: byte 7 of the view is 0x0F after E4's first draw. -/
theorem test_displayView : ((State.reset.setDisp (State.reset.disp.set 0 0xF#64)).displayView)[7]! = 0x0F#8 := by decide

/-! ## Witnesses: a concrete state and operands that meet all hypotheses of each statement, its clauses at their
boundary values -/

/-- A core waiting at FX0A. -/
def waiting : State := boot 0xF30A (fun s => s.setWait true false)

/-- A core halted by RET on an empty stack. -/
def stopped : State := { State.reset with halted := true, faultCause := some (.stackUnderflow 0x200#16) }

theorem witness_DecodeOfEncodeIsIdentity : WellFormed (.sys 0xFFF#12) ∧ WellFormed (.drw 15 15 15#4) := by decide

theorem witness_DecodedWordReencodes : decodeWord 0xFF65#16 = some (.load 15) ∧ decodeWord 0x0000#16 = some (.sys 0#12) := by
  decide

theorem witness_RetResult : State.reset.stack = [] ∧ (State.reset.setStack [0xFFE#16]).stack = 0xFFE#16 :: [] := by decide

theorem witness_SysResult : (0x0EF#12 ≠ 0x0E0#12 ∧ 0x0EF#12 ≠ 0x0EE#12) := by decide

theorem witness_CallResult : State.reset.stack.length = 0 ∧ State.reset.stack.length < 1 ∧
    (State.reset.setStack [0x200#16]).stack.length = 1 := by decide

theorem witness_CallThenRetReturns : ∃ t, exec (.call 0xFFF#12) State.reset = .next t ∧
    (t.setReg 0 1#8).stack = t.stack := ⟨_, rfl, rfl⟩

theorem witness_SkipRegisterResult : 0 < 1 ∧ 1 < 16 ∧ 0 < 15 ∧ 15 < 16 := by decide

/-- The last row of bytes that fits, the first that does not, and n = 0 at the largest I. -/
theorem witness_DrwResult :
    (State.reset.setI 0xFFF#16).i.toNat + (1#4).toNat ≤ 4096 ∧
    ((0#4).toNat = 0 ∧ (State.reset.setI 0xFFFF#16).i.toNat = 0xFFFF) ∧
    (0 < (2#4).toNat ∧ 4096 < (State.reset.setI 0xFFF#16).i.toNat + (2#4).toNat) ∧
    (0 < (1#4).toNat ∧ 4096 < (State.reset.setI 0xFFFF#16).i.toNat + (1#4).toNat) := by decide

theorem witness_DrawTwiceCollides :
    (State.reset.setI 0xFFF#16).i.toNat + (1#4).toNat ≤ 4096 ∧ (1 : Reg) ≠ 15 ∧ (2 : Reg) ≠ 15 ∧
    ∀ px py, px < 64 → py < 32 → (State.reset.setI 0xFFF#16).pixel px py = false :=
  ⟨by decide, by decide, by decide, fun px py _ _ => by simp [State.pixel, Screen.pixel, State.setI, State.reset]⟩

/-- Glyph 0 drawn on a clear display changes it. -/
theorem witness_DisplayChangesOnlyByDrawAndClear : ∃ t, exec (.drw 1 2 5#4) State.reset = .next t ∧
    t.disp ≠ State.reset.disp ∧ State.reset.halted = false ∧ t.halted = false := ⟨_, rfl, by decide, rfl, by decide⟩

theorem witness_ReadDelayTimerResult : (boot 0xF107 id).RunsNext (.ldVxDt 1) :=
  ⟨by decide, by decide, by decide, by decide⟩

theorem witness_WriteTimersResult_delay : (boot 0xF015 (fun s => s.setReg 0 3#8)).RunsNext (.ldDtVx 0) :=
  ⟨by decide, by decide, by decide, by decide⟩

theorem witness_WriteTimersResult : (boot 0xF118 (fun s => s.setSt 3#8)).RunsNext (.ldStVx 1) :=
  ⟨by decide, by decide, by decide, by decide⟩

theorem witness_KeyWaitResult : State.reset.armed = false ∧
    ((State.reset.setWait true true).armed = true ∧ (State.reset.setWait true true).keyEvent = true) ∧
    (State.reset.setWait true false).armed = true ∧ (State.reset.setWait true false).keyEvent = false := by decide

theorem witness_KeyWaitLastsUntilPress : waiting.RunsNext (.ldVxK 3) ∧ waiting.armed = true ∧ waiting.keyEvent = false :=
  ⟨⟨by decide, by decide, by decide, by decide⟩, by decide, by decide⟩

theorem witness_EarlyPressDoesNotEndWait : (boot 0xF30A id).RunsNext (.ldVxK 3) ∧ (boot 0xF30A id).armed = false :=
  ⟨⟨by decide, by decide, by decide, by decide⟩, by decide⟩

/-- A step, with DT at its least value that suspends. -/
theorem witness_TimerLaws : ∃ t, step (State.reset.setDt 1#8) = .next t ∧ (State.reset.setDt 1#8).dt ≠ 0#8 := ⟨_, rfl, by decide⟩

/-- FX15 raises DT. -/
theorem witness_TimerLaws_delay : ∃ t, step (boot 0xF015 (fun s => s.setReg 0 1#8)) = .next t ∧
    (boot 0xF015 (fun s => s.setReg 0 1#8)).dt.toNat < t.dt.toNat := ⟨_, rfl, by decide⟩

/-- FX18 raises ST. -/
theorem witness_TimerLaws_sound : ∃ t, step (boot 0xF118 (fun s => s.setReg 1 1#8)) = .next t ∧
    (boot 0xF118 (fun s => s.setReg 1 1#8)).st.toNat < t.st.toNat := ⟨_, rfl, by decide⟩

theorem witness_DelayTimerSuspendsExecution : (State.reset.setDt 3#8).halted = false ∧ 3 ≤ (State.reset.setDt 3#8).dt.toNat := by
  decide

theorem witness_BcdResult : (State.reset.setI 0xFFD#16).i.toNat + 3 ≤ 4096 ∧
    4096 < (State.reset.setI 0xFFE#16).i.toNat + 3 ∧ 4096 < (State.reset.setI 0xFFFF#16).i.toNat + 3 := by decide

/-- All 16 registers end at the last byte of memory, or one past it; one register at the last byte. -/
theorem witness_RegisterDumpResult :
    (State.reset.setI 0xFF0#16).i.toNat + (15 : Reg).val + 1 ≤ 4096 ∧
    (State.reset.setI 0xFFF#16).i.toNat + (0 : Reg).val + 1 ≤ 4096 ∧
    4096 < (State.reset.setI 0xFF1#16).i.toNat + (15 : Reg).val + 1 := by decide

@[inherit_doc witness_RegisterDumpResult] theorem witness_RegisterLoadResult :
    (State.reset.setI 0xFF0#16).i.toNat + (15 : Reg).val + 1 ≤ 4096 ∧
    (State.reset.setI 0xFFF#16).i.toNat + (0 : Reg).val + 1 ≤ 4096 ∧
    4096 < (State.reset.setI 0xFF1#16).i.toNat + (15 : Reg).val + 1 := by decide

theorem witness_DumpThenLoadRestores : (State.reset.setI 0xFF0#16).i.toNat + (15 : Reg).val + 1 ≤ 4096 ∧
    ∃ t, exec (.dump 15) (State.reset.setI 0xFF0#16) = .next t ∧ (t.setI 0xFF0#16).mem = t.mem ∧
      (t.setI 0xFF0#16).i = (State.reset.setI 0xFF0#16).i ∧ (15 : Reg).val ≤ (15 : Reg).val :=
  ⟨by decide, _, rfl, rfl, rfl, by decide⟩

theorem witness_StoreIsSeenByFetch : (State.reset.setI 0x200#16).i.toNat + (1 : Reg).val + 1 ≤ 4096 ∧
    (1 : Reg).val = (0 : Reg).val + 1 ∧ (1 : Reg).val ≤ (1 : Reg).val ∧
    ∃ t, exec (.dump 1) (State.reset.setI 0x200#16) = .next t ∧ (t.setPc 0x200#16).mem = t.mem ∧
      (t.setPc 0x200#16).pc.toNat = (State.reset.setI 0x200#16).i.toNat + (0 : Reg).val :=
  ⟨by decide, by decide, by decide, _, rfl, rfl, by decide⟩

theorem witness_OnlyNamedRegistersChange : ∃ t, exec (.addReg 1 2) State.reset = .next t ∧
    (Instr.addReg 1 2).writesReg 3 = false := ⟨_, rfl, by decide⟩

/-- The byte after those FX33 stores to, and an address that does not exist. -/
theorem witness_OnlyNamedAddressesChange : ∃ t, exec (.ldB 1) (State.reset.setI 0x300#16) = .next t ∧
    (Instr.ldB 1).storesAt (State.reset.setI 0x300#16) 0x303 = false ∧ 4096 ≤ 4096 := ⟨_, rfl, by decide, by decide⟩

theorem witness_StepLeavesKeypadAndPolicy : ∃ t, step (boot 0xF30A id) = .next t ∧ t.armed ≠ (boot 0xF30A id).armed :=
  ⟨_, rfl, by decide⟩

theorem witness_StepRunsDecodedInstruction : (boot 0xD121 id).RunsNext (.drw 1 2 1#4) :=
  ⟨by decide, by decide, by decide, by decide⟩

/-- At the last word of memory: an instruction, and an unimplemented word. -/
theorem witness_StepOrder :
    stopped.halted = true ∧
    ((State.reset.setDt 1#8).halted = false ∧ (State.reset.setDt 1#8).dt ≠ 0#8) ∧
    (boot 0x8008 (fun s => s.setPc 0xFFE#16)).halted = false ∧ (boot 0x8008 (fun s => s.setPc 0xFFE#16)).dt = 0#8 ∧
    (boot 0x8008 (fun s => s.setPc 0xFFE#16)).pc.toNat + 1 < 4096 ∧
    decodeWord 0x8008#16 = none ∧ decodeWord 0x0000#16 = some (.sys 0#12) ∧
    ((State.reset.setPc 0xFFF#16).halted = false ∧ (State.reset.setPc 0xFFF#16).dt = 0#8 ∧
      4096 ≤ (State.reset.setPc 0xFFF#16).pc.toNat + 1) := by decide

theorem witness_FetchResult : (State.reset.setPc 0xFFE#16).pc.toNat + 1 < 4096 ∧
    4096 ≤ (State.reset.setPc 0x1000#16).pc.toNat ∧ (State.reset.setPc 0xFFF#16).pc.toNat + 1 = 4096 := by decide

theorem witness_HaltIsForever : stopped.halted = true := by decide

theorem witness_FaultChangesNothingElse : ∃ t, exec .ret State.reset = .next t ∧ State.reset.halted = false ∧
    t.halted = true := ⟨_, rfl, by decide, by decide⟩

/-- The second clause, with the sound timer running. -/
theorem witness_FaultChangesNothingElse_step : ∃ t, step (boot 0x00EE (fun s => s.setSt 4#8)) = .next t ∧
    (boot 0x00EE (fun s => s.setSt 4#8)).halted = false ∧ t.halted = true := ⟨_, rfl, by decide, by decide⟩

theorem witness_FaultsExactlyAsListed : State.reset.halted = false ∧ (∃ t, exec .ret State.reset = .next t) ∧
    State.reset.stack = [] ∧ 0 < (Instr.ldB 1).accessWidth ∧
    4096 < (State.reset.setI 0xFFE#16).i.toNat + (Instr.ldB 1).accessWidth := ⟨by decide, ⟨_, rfl⟩, by decide, by decide, by decide⟩

/-- A halted state meets the invariant, with the cause it records. -/
theorem witness_StepKeepsInvariant : stopped.Inv ∧ ∃ t, step stopped = .next t :=
  ⟨⟨by decide, by decide, by simp [stopped, State.reset], by decide,
    fun f hf => by cases hf; exact ⟨rfl, rfl⟩, by simp [stopped, State.reset]⟩, _, rfl⟩

/-- The empty program is accepted. -/
theorem witness_ConstructedRunsMeetInvariant :
    ∃ s, State.construct [] (fun _ => 0#8) true false (Vector.replicate _ 0x3C#8) = .next s := ⟨_, rfl⟩

/-- The largest program (T104). -/
theorem witness_ConstructResult : (List.replicate 3216 0xFF#8).length ≤ 3216 := by rw [List.length_replicate]

/-- The smallest program refused (T105). -/
theorem witness_TooLargeProgramIsRefused : 3216 < (List.replicate 3217 0xFF#8).length := by
  rw [List.length_replicate]; decide

end Sys2Proof.Tests
end

/-! # What an answer meets

Every instruction and every step answers a next state, so a law of the machine is a property that the answered state
meets. The rules below go through the branches of the shared operations once, for any such property. -/

namespace Sys2Proof.Machine

/-- The answer is a next state, and this state meets `P`. -/
def Answers (P : State → Prop) (r : Result) : Prop := ∃ t, r = .next t ∧ P t

theorem answers_next {P : State → Prop} {t : State} (h : P t) : Answers P (.next t) := ⟨t, rfl, h⟩

theorem Answers.of_eq_next {P : State → Prop} {r : Result} {t : State} (h : Answers P r) (e : r = .next t) : P t := by
  obtain ⟨u, hu, hP⟩ := h
  obtain rfl : u = t := Host.Outcome.next.inj (hu.symm.trans e)
  exact hP

theorem Answers.and {P Q : State → Prop} {r : Result} (hP : Answers P r) (hQ : Answers Q r) :
    Answers (fun t => P t ∧ Q t) r := by
  obtain ⟨t, ht, hPt⟩ := hP
  exact ⟨t, ht, hPt, hQ.of_eq_next ht⟩

/-- A guarded access (20_memory.md R53). -/
theorem answers_withRange {P : State → Prop} {s go : State} {a n : Nat}
    (hbad : ∀ bad, outOfRange a n = some bad → P (s.raise (.memOutOfRange bad)))
    (hgo : n = 0 ∨ a + n ≤ Config.memSize → P go) : Answers P (s.withRange a n go) := by
  obtain ⟨hrange, he⟩ | ⟨bad, hout, he⟩ := s.withRange_cases a n go
  · exact ⟨go, he, hgo hrange⟩
  · exact ⟨_, he, hbad bad hout⟩

/-- RET on the empty and on a nonempty stack (41_control_flow.md R101). -/
theorem answers_execRet {P : State → Prop} {s : State}
    (hempty : s.stack = [] → P (s.raise (.stackUnderflow s.pc)))
    (hpop : ∀ a rest, s.stack = a :: rest → P ((s.setStack rest).setPc (a + 2#16))) : Answers P (execRet s) := by
  unfold execRet
  split
  · next h => exact answers_next (hempty h)
  · next a rest h => exact answers_next (hpop a rest h)

/-- FX0A arms, completes or waits (46_keys_timers.md R163). -/
theorem answers_execLdVxK {P : State → Prop} {s : State} {x : Reg}
    (harm : s.armed = false → P (s.setWait true false))
    (hkey : s.armed = true → s.keyEvent = true →
      P ((s.setReg x (s.latch.setWidth 8)).setWait false false).advance)
    (hwait : s.armed = true → s.keyEvent = false → P s) : Answers P (execLdVxK x s) := by
  unfold execLdVxK
  cases ha : s.armed with
  | false => exact answers_next (harm ha)
  | true =>
    cases he : s.keyEvent with
    | true => exact answers_next (hkey ha he)
    | false => exact answers_next (hwait ha he)

/-- What every transaction keeps, every sequence of transactions keeps (10_state.md R46). -/
theorem answers_runTransactions {P : State → Prop} (hkeep : ∀ s tr, P s → Answers P (transact s tr)) {s : State}
    (hs : P s) (ts : List Transaction) : Answers P (runTransactions s ts) := by
  induction ts generalizing s with
  | nil => exact answers_next hs
  | cons tr ts ih =>
    obtain ⟨t, ht, hP⟩ := hkeep s tr hs
    rw [runTransactions_cons tr ts ht]
    exact ih hP

end Sys2Proof.Machine

/-! # The invariant

One rule per state operation, then the instructions, the step and the host's transactions. -/

namespace Sys2Proof.Machine

variable {s t : State}

/-- What holds where a step executes an instruction: the invariant, no halt, and a pc whose two bytes exist
(40_cycle.md R91 to R93). -/
structure State.Executing (s : State) : Prop where
  inv : s.Inv
  running : s.halted = false
  fetched : s.pc.toNat + 1 < 4096

/-- The two states agree on memory, pc, the stack, the halt, the key wait and the policies: all that the invariant
speaks of. -/
abbrev State.DataFrame (s t : State) : Prop :=
  t = { s with v := t.v, i := t.i, disp := t.disp, dt := t.dt, st := t.st, keys := t.keys, latch := t.latch,
               draws := t.draws, diag := t.diag }

theorem State.Inv.frame (h : s.Inv) (ht : s.DataFrame t) : t.Inv := by
  rw [ht]
  exact ⟨h.memory, h.pcBound, h.stackBound, h.haltAgrees, h.causeAgrees, h.eventArmed⟩

theorem State.Inv.faultCause_eq_none (h : s.Inv) (hrun : s.halted = false) : s.faultCause = none := by
  simpa [hrun] using h.haltAgrees

/-- Where no cause is recorded, the clauses on memory, pc, stack and key wait are all of the invariant. -/
theorem State.Inv.of_running (hmem : s.mem.wf = true) (hpc : s.pc.toNat ≤ 0x10FE)
    (hstack : ∀ a ∈ s.stack, a.toNat ≤ 0xFFE) (hrun : s.halted = false) (hcause : s.faultCause = none)
    (hevent : s.keyEvent = true → s.armed = true) : s.Inv :=
  ⟨hmem, hpc, hstack, by simp [hrun, hcause], by simp [hcause], hevent⟩

theorem State.Inv.raise {f : Fault} (h : s.Inv) (hf : f.agrees s) : (s.raise f).Inv :=
  ⟨h.memory, h.pcBound, h.stackBound, rfl, by rintro _ ⟨⟩; exact hf, h.eventArmed⟩

theorem State.Inv.press (h : s.Inv) (k : Nibble) : (s.press k).Inv :=
  ⟨h.memory, h.pcBound, h.stackBound, h.haltAgrees, h.causeAgrees, fun hk => by
    rw [State.press_keyEvent, Bool.or_eq_true] at hk
    exact hk.elim h.eventArmed id⟩

namespace State.Executing

theorem frame (h : s.Executing) (ht : s.DataFrame t) : t.Executing :=
  ⟨h.inv.frame ht, by rw [ht]; exact h.running, by rw [ht]; exact h.fetched⟩

theorem faultCause (h : s.Executing) : s.faultCause = none := h.inv.faultCause_eq_none h.running

theorem setMem (h : s.Executing) {m : Memory} (hm : m.wf = true) : (s.setMem m).Executing :=
  ⟨.of_running hm h.inv.pcBound h.inv.stackBound h.running h.faultCause h.inv.eventArmed, h.running, h.fetched⟩

theorem setStack (h : s.Executing) {l : List Word} (hl : ∀ a ∈ l, a.toNat ≤ 0xFFE) : (s.setStack l).Executing :=
  ⟨.of_running h.inv.memory h.inv.pcBound hl h.running h.faultCause h.inv.eventArmed, h.running, h.fetched⟩

theorem setWait (h : s.Executing) (armed : Bool) : (s.setWait armed false).Executing :=
  ⟨.of_running h.inv.memory h.inv.pcBound h.inv.stackBound h.running h.faultCause (by simp), h.running, h.fetched⟩

/-- An executed instruction's own address may be pushed (10_state.md R27). -/
theorem push_pc (h : s.Executing) : (s.push s.pc).Executing := by
  refine h.setStack fun a ha => ?_
  obtain rfl | ha := List.mem_cons.mp ha
  · have := h.fetched
    omega
  · exact h.inv.stackBound a ha

theorem setPc (h : s.Executing) {w : Word} (hw : w.toNat ≤ 0x10FE) : (s.setPc w).Inv :=
  .of_running h.inv.memory hw h.inv.stackBound h.running h.faultCause h.inv.eventArmed

/-- An executed instruction stands at 0xFFE or below, so moving on by at most 4 stays in the bound. -/
theorem setPc_add (h : s.Executing) {d : Word} (hd : d.toNat ≤ 4) : (s.setPc (s.pc + d)).Inv := by
  refine h.setPc ?_
  have := h.fetched
  rw [BitVec.toNat_add]
  omega

theorem advance (h : s.Executing) : s.advance.Inv := h.setPc_add (by decide)

theorem skipIf (h : s.Executing) (taken : Bool) : (s.skipIf taken).Inv :=
  h.setPc_add (by cases taken <;> decide)

/-- The address a guarded access at I reports agrees with the state (60_exceptions.md R182). -/
theorem withRange (h : s.Executing) {n : Nat} {go : State}
    (hgo : n = 0 ∨ s.addressI + n ≤ Config.memSize → go.Inv) :
    Answers State.Inv (s.withRange s.addressI n go) :=
  answers_withRange (fun _ hbad => h.inv.raise (outOfRange_le hbad)) hgo

/-- A guarded block store writes existing addresses only. -/
theorem storeBytes (h : s.Executing) {bs : List Byte}
    (hrange : bs.length = 0 ∨ s.addressI + bs.length ≤ Config.memSize) :
    (s.storeBytes s.addressI bs).Executing := by
  refine h.setMem ?_
  obtain hnil | hin := hrange
  · rw [List.length_eq_zero_iff.mp hnil]
    exact h.inv.memory
  · exact Memory.setMany_wf bs h.inv.memory hin

theorem setRegsFrom (h : s.Executing) (k : Nat) (bs : List Byte) : (s.setRegsFrom k bs).Executing :=
  h.frame (by rw [State.setRegsFrom_eq])

end State.Executing

theorem targetOf_toNat (nnn : Addr12) : (targetOf nnn).toNat = nnn.toNat :=
  BitVec.toNat_setWidth_of_le (by decide)

theorem State.regWord_toNat (s : State) (x : Reg) : (s.regWord x).toNat = (s.reg x).toNat :=
  BitVec.toNat_setWidth_of_le (by decide)

/-- "every jump target is at most 0xFFF + 0xFF = 0x10FE" (10_state.md R27). -/
theorem targetOf_add_regWord_le (nnn : Addr12) (s : State) (x : Reg) :
    (targetOf nnn + s.regWord x).toNat ≤ 0x10FE := by
  have hn := nnn.isLt
  have hr := (s.reg x).isLt
  rw [BitVec.toNat_add, targetOf_toNat, s.regWord_toNat]
  omega

theorem targetOf_le (nnn : Addr12) : (targetOf nnn).toNat ≤ 0x10FE := by
  have hn := nnn.isLt
  rw [targetOf_toNat]
  omega

/-- Popping keeps R27's bounds: the popped address is at most 0xFFE, and pc becomes 2 more. -/
theorem State.Executing.ret (h : s.Executing) : Answers State.Inv (execRet s) := by
  refine answers_execRet (fun hempty => h.inv.raise ⟨hempty, rfl⟩) fun a rest hs => ?_
  have hbound : ∀ b ∈ a :: rest, b.toNat ≤ 0xFFE := hs ▸ h.inv.stackBound
  refine (h.setStack fun b hb => hbound b (List.mem_cons_of_mem a hb)).setPc ?_
  have := hbound a List.mem_cons_self
  rw [BitVec.toNat_add]
  show (a.toNat + 2) % 2 ^ 16 ≤ _
  omega

/-- Every executed instruction answers a state that meets the invariant. -/
theorem exec_keeps_inv (h : s.Executing) (i : Instr) : Answers State.Inv (exec i s) := by
  cases i with
  | cls | sys _ | ldImm _ _ | addImm _ _ | ldReg _ _ | orReg _ _ | andReg _ _ | xorReg _ _ | addReg _ _
  | subReg _ _ | shr _ _ | subnReg _ _ | shl _ _ | ldI _ | rnd _ _ | ldVxDt _ | ldDtVx _ | ldStVx _ | addI _
  | ldF _ => exact answers_next (h.frame rfl).advance
  | seImm _ _ | sneImm _ _ | seReg _ _ | sneReg _ _ | skp _ | sknp _ => exact answers_next (h.skipIf _)
  | jp nnn => exact answers_next (h.setPc (targetOf_le nnn))
  | jpV0 nnn => exact answers_next (h.setPc (targetOf_add_regWord_le nnn s Reg.v0))
  | call nnn => exact answers_next (h.push_pc.setPc (targetOf_le nnn))
  | ret => exact h.ret
  | ldVxK x =>
    exact answers_execLdVxK (fun _ => (h.setWait true).inv) (fun _ _ => ((h.frame rfl).setWait false).advance)
      fun _ _ => h.inv
  | drw x y n => exact h.withRange fun _ => (h.frame rfl).advance
  | ldB x => exact h.withRange fun hrange => (h.storeBytes (bs := bcdDigits (s.reg x)) hrange).advance
  | dump x =>
    refine h.withRange fun hrange => ?_
    have hstore := h.storeBytes (bs := s.regsUpTo x) (by rwa [s.regsUpTo_length])
    exact (hstore.frame rfl).advance
  | load x => exact h.withRange fun _ => ((h.setRegsFrom _ _).frame rfl).advance

/-- Every step answers a state that meets the invariant. -/
theorem step_keeps_inv (h : s.Inv) : Answers State.Inv (step s) := by
  have htick : ({ s with st := s.stAfter } : State).Inv := h.frame rfl
  obtain ⟨-, he⟩ | ⟨-, -, he⟩ | ⟨-, -, hpc, he⟩ | ⟨i, ⟨hrun, -, hpc, -⟩, he⟩ | ⟨hrun, -, hpc, -, he⟩ :=
    step_cases s <;> rw [he]
  · exact answers_next h
  · exact answers_next (h.frame rfl)
  · refine answers_next (htick.raise ⟨Nat.le_max_right _ _, ?_⟩)
    have := h.pcBound
    omega
  · exact exec_keeps_inv ⟨htick, hrun, hpc⟩ i
  · exact answers_next (State.Executing.advance (s := State.signalUnimplemented { s with st := s.stAfter } _)
      ⟨htick.frame rfl, hrun, hpc⟩)

/-- Every transaction of the host answers a state that meets the invariant. -/
theorem transact_keeps_inv (h : s.Inv) (tr : Transaction) : Answers State.Inv (transact s tr) := by
  cases tr with
  | step => exact step_keeps_inv h
  | press k => exact answers_next (h.press k)
  | release k => exact answers_next (h.frame rfl)

theorem reset_inv : State.reset.Inv :=
  .of_running State.reset_mem_wf (by decide) (by simp [State.reset]) rfl rfl (by simp [State.reset])

/-- Every constructed core meets the invariant: only memory and the policies differ from reset (R200). -/
theorem construct_inv {program : List Byte} {initMem : Nat → Byte} {sh inc : Bool} {font : Font}
    (h : State.construct program initMem sh inc font = .next s) : s.Inv ∧ s.cfg = ⟨sh, inc⟩ := by
  by_cases hlen : program.length ≤ 3216
  · obtain ⟨m, hm, -, he⟩ := State.construct_ok (font := font) (initMem := initMem) (sh := sh) (inc := inc) hlen
    obtain rfl := Host.Outcome.next.inj (he.symm.trans h)
    exact ⟨.of_running hm reset_inv.pcBound reset_inv.stackBound rfl rfl reset_inv.eventArmed, rfl⟩
  · rw [State.construct_tooLarge (by omega)] at h
    cases h

/-- Settles O54: each case of a step keeps the invariant by the rules of the operations it is made of. -/
theorem stepKeepsInvariant : Obligations.StepKeepsInvariant := by
  unfold Obligations.StepKeepsInvariant
  intro s t h he
  exact (step_keeps_inv h).of_eq_next he

/-- Settles O53: nothing is listed, pushed, halted or armed at reset, and pc is `ENTRY_PC`. -/
theorem resetMeetsInvariant : Obligations.ResetMeetsInvariant := reset_inv

end Sys2Proof.Machine

/-! # What instructions and steps leave unchanged -/

namespace Sys2Proof.Machine

variable {s : State}

theorem State.reg_setReg_of_ne {r x : Reg} (b : Byte) (h : (r == x) = false) : (s.setReg x b).reg r = s.reg r := by
  rw [State.reg_setReg, if_neg (by simpa using h)]

theorem State.reg_setRegFlag_of_ne {r x : Reg} (b f : Byte) (h : (r == x || r == Reg.vf) = false) :
    (s.setRegFlag x b f).reg r = s.reg r := by
  obtain ⟨hx, hvf⟩ := Bool.or_eq_false_iff.mp h
  rw [State.setRegFlag_eq, State.reg_setReg_of_ne f hvf, State.reg_setReg_of_ne b hx]

/-- A block load of x + 1 bytes from V0 leaves the registers above Vx. -/
theorem State.reg_setRegsFrom_of_gt {r x : Reg} {bs : List Byte} (hlen : bs.length = x.val + 1) (h : x.val < r.val) :
    (s.setRegsFrom 0 bs).reg r = s.reg r := by
  rw [State.reg_setRegsFrom, if_neg (by omega)]

/-- An instruction keeps every register that R21 and R22 do not let it write. -/
theorem exec_keeps_reg (i : Instr) (s : State) {r : Reg} (hw : i.writesReg r = false) :
    Answers (fun t => t.reg r = s.reg r) (exec i s) := by
  cases i with
  | ldImm _ _ | addImm _ _ | ldReg _ _ | orReg _ _ | andReg _ _ | xorReg _ _ | ldVxDt _ =>
    exact answers_next (s.reg_setReg_of_ne _ hw)
  | rnd _ _ => exact answers_next (s.draw.2.reg_setReg_of_ne _ hw)
  | addReg _ _ | subReg _ _ | shr _ _ | subnReg _ _ | shl _ _ => exact answers_next (s.reg_setRegFlag_of_ne _ _ hw)
  | drw x y n => exact answers_withRange (fun _ _ => rfl) fun _ => (s.setDisp _).reg_setReg_of_ne _ hw
  | load x =>
    exact answers_withRange (fun _ _ => rfl) fun _ =>
      s.reg_setRegsFrom_of_gt (s.mem.getMany_length _ _) (by simpa [Instr.writesReg] using hw)
  | ldVxK x => exact answers_execLdVxK (fun _ => rfl) (fun _ _ => s.reg_setReg_of_ne _ hw) fun _ _ => rfl
  | ldB _ | dump _ => exact answers_withRange (fun _ _ => rfl) fun _ => rfl
  | ret => exact answers_execRet (fun _ => rfl) fun _ _ _ => rfl
  | cls | sys _ | jp _ | call _ | seImm _ _ | sneImm _ _ | seReg _ _ | sneReg _ _ | ldI _ | jpV0 _ | skp _ | sknp _
  | ldDtVx _ | ldStVx _ | addI _ | ldF _ => exact answers_next rfl

/-- The key flags, the latch and the configuration are as before (10_state.md R35, R36, R41). -/
def State.SameKeypadAndPolicy (s t : State) : Prop := t.keys = s.keys ∧ t.latch = s.latch ∧ t.cfg = s.cfg

/-- The key wait is as before (10_state.md R37, R38). -/
def State.SameWait (s t : State) : Prop := t.armed = s.armed ∧ t.keyEvent = s.keyEvent

/-- No instruction changes the keypad or the policies, and none but FX0A the key wait. -/
theorem exec_keeps_keypad (i : Instr) (s : State) :
    Answers (fun t => s.SameKeypadAndPolicy t ∧ (s.SameWait t ∨ ∃ x, i = .ldVxK x)) (exec i s) := by
  have same {t : State} (h : (t.keys, t.latch, t.cfg, t.armed, t.keyEvent) =
      (s.keys, s.latch, s.cfg, s.armed, s.keyEvent)) :
      s.SameKeypadAndPolicy t ∧ (s.SameWait t ∨ ∃ x, i = .ldVxK x) := by
    simp only [Prod.mk.injEq] at h
    obtain ⟨hkeys, hlatch, hcfg, harmed, hevent⟩ := h
    exact ⟨⟨hkeys, hlatch, hcfg⟩, .inl ⟨harmed, hevent⟩⟩
  cases i with
  | ldVxK x =>
    exact answers_execLdVxK (fun _ => ⟨⟨rfl, rfl, rfl⟩, .inr ⟨x, rfl⟩⟩)
      (fun _ _ => ⟨⟨rfl, rfl, rfl⟩, .inr ⟨x, rfl⟩⟩) fun _ _ => same rfl
  | load x =>
    refine answers_withRange (fun _ _ => same rfl) fun _ => ?_
    rw [State.setRegsFrom_eq]
    exact same rfl
  | drw _ _ _ | ldB _ | dump _ => exact answers_withRange (fun _ _ => same rfl) fun _ => same rfl
  | ret => exact answers_execRet (fun _ => same rfl) fun _ _ _ => same rfl
  | cls | sys _ | jp _ | call _ | seImm _ _ | sneImm _ _ | seReg _ _ | ldImm _ _ | addImm _ _ | ldReg _ _ | orReg _ _
  | andReg _ _ | xorReg _ _ | addReg _ _ | subReg _ _ | shr _ _ | subnReg _ _ | shl _ _ | sneReg _ _ | ldI _ | jpV0 _
  | rnd _ _ | skp _ | sknp _ | ldVxDt _ | ldDtVx _ | ldStVx _ | addI _ | ldF _ =>
    exact answers_next (same rfl)

/-- No step changes the keypad or the policies, and only a step that runs FX0A the key wait. -/
theorem step_keeps_keypad (s : State) :
    Answers (fun t => s.SameKeypadAndPolicy t ∧ (s.SameWait t ∨ ∃ x, s.RunsNext (.ldVxK x))) (step s) := by
  obtain ⟨-, he⟩ | ⟨-, -, he⟩ | ⟨-, -, -, he⟩ | ⟨i, hi, he⟩ | ⟨-, -, -, -, he⟩ := step_cases s
  · exact ⟨_, he, ⟨rfl, rfl, rfl⟩, .inl ⟨rfl, rfl⟩⟩
  · exact ⟨_, he, ⟨rfl, rfl, rfl⟩, .inl ⟨rfl, rfl⟩⟩
  · exact ⟨_, he, ⟨rfl, rfl, rfl⟩, .inl ⟨rfl, rfl⟩⟩
  · obtain ⟨t, ht, hkeys, hwait⟩ := exec_keeps_keypad i { s with st := s.stAfter }
    refine ⟨t, he.trans ht, hkeys, hwait.imp_right ?_⟩
    rintro ⟨x, rfl⟩
    exact ⟨x, hi⟩
  · exact ⟨_, he, ⟨rfl, rfl, rfl⟩, .inl ⟨rfl, rfl⟩⟩

/-- The policies are fixed at construction: no transaction changes them (10_state.md R41). -/
theorem transact_keeps_cfg (s : State) (tr : Transaction) : Answers (fun t => t.cfg = s.cfg) (transact s tr) := by
  cases tr with
  | step =>
    obtain ⟨t, he, ⟨-, -, hcfg⟩, -⟩ := step_keeps_keypad s
    exact ⟨t, he, hcfg⟩
  | press _ | release _ => exact answers_next rfl

/-- Settles O43, by cases on the instruction in `exec_keeps_reg`. -/
theorem onlyNamedRegistersChange : Obligations.OnlyNamedRegistersChange := by
  unfold Obligations.OnlyNamedRegistersChange
  intro i s t r he hw
  exact (exec_keeps_reg i s hw).of_eq_next he

/-- Settles O45, by the cases of a step in `step_keeps_keypad`. -/
theorem stepLeavesKeypadAndPolicy : Obligations.StepLeavesKeypadAndPolicy := by
  unfold Obligations.StepLeavesKeypadAndPolicy
  intro s t he
  obtain ⟨⟨hkeys, hlatch, hcfg⟩, hwait⟩ := (step_keeps_keypad s).of_eq_next he
  exact ⟨hkeys, hlatch, hcfg, hwait⟩

/-- Settles O55: what a constructed core meets, every transaction keeps. -/
theorem constructedRunsMeetInvariant : Obligations.ConstructedRunsMeetInvariant := by
  unfold Obligations.ConstructedRunsMeetInvariant
  intro program initMem sh inc font s hs ts
  refine answers_runTransactions (P := fun t => t.Inv ∧ t.cfg = ⟨sh, inc⟩) ?_ (construct_inv hs) ts
  rintro u tr ⟨hinv, hcfg⟩
  rw [← hcfg]
  exact (transact_keeps_inv hinv tr).and (transact_keeps_cfg u tr)

end Sys2Proof.Machine

/-! # The host's ports -/

namespace Sys2Proof.Machine

variable (s : State)

/-- Setting the flag of key `k` sets that of `k` alone. -/
theorem keys_getElem_set (keys : Vector Bool 16) (k : Nibble) (b : Bool) (j : Fin 16) :
    (keys.set k.toFin b)[j] = if j.val = k.toNat then b else keys[j] := by
  simp only [Fin.getElem_fin, Vector.getElem_set, BitVec.val_toFin, eq_comm]

/-- Settles O34: each port is one record update, and the key flag is one entry of the keypad. -/
theorem pressAndReleaseResult : Obligations.PressAndReleaseResult := by
  unfold Obligations.PressAndReleaseResult
  intro s k
  have hevent : (s.press k).keyEvent = if s.armed = true then true else s.keyEvent := by
    rw [State.press_keyEvent]
    cases s.armed <;> simp
  refine ⟨⟨s.press k, rfl, ?_, keys_getElem_set s.keys k true⟩,
    s.release k, rfl, rfl, keys_getElem_set s.keys k false⟩
  rw [← hevent]
  rfl

theorem rowBytes_length (row : BitVec 64) : (rowBytes row).length = 8 := by simp [rowBytes]

/-- Bit 7 - c of byte k of a row is column 8k + c. -/
theorem rowBytes_getLsbD (row : BitVec 64) {k c : Nat} (hk : k < 8) (hc : c < 8) :
    ((rowBytes row)[k]'(by rwa [rowBytes_length])).getLsbD (7 - c) = row.getMsbD (8 * k + c) := by
  simp only [rowBytes, List.getElem_map, List.getElem_range, BitVec.getLsbD_extractLsb', BitVec.getMsbD]
  rw [show 56 - 8 * k + (7 - c) = 64 - 1 - (8 * k + c) by omega]
  simp only [show 7 - c < 8 by omega, show 8 * k + c < 64 by omega]

/-- Blocks of one length, one after the other: entry `j` of block `i`. -/
theorem getElem?_flatMap_block {α β : Type} (f : α → List β) {n : Nat} (hf : ∀ a, (f a).length = n) (l : List α)
    (i : Nat) {j : Nat} (hj : j < n) : (l.flatMap f)[i * n + j]? = l[i]?.bind fun a => (f a)[j]? := by
  induction l generalizing i with
  | nil => simp
  | cons a l ih =>
    rw [List.flatMap_cons]
    cases i with
    | zero => simp [List.getElem?_append_left, hf, hj]
    | succ i =>
      rw [List.getElem?_append_right (by rw [hf, Nat.succ_mul]; omega), hf,
        show (i + 1) * n + j - n = i * n + j by rw [Nat.succ_mul]; omega, ih]
      rfl

theorem State.displayView_length : s.displayView.length = 256 := by
  simp [State.displayView, List.length_flatMap, rowBytes_length]

/-- Byte `k` of row `y` of the display view. -/
theorem State.displayView_getElem! {y k : Nat} (hy : y < 32) (hk : k < 8) :
    s.displayView[y * 8 + k]! = (rowBytes s.disp[y])[k]'(by rwa [rowBytes_length]) := by
  have hrow : s.disp.toList[y]? = some s.disp[y] := by simp [hy]
  have hbyte : s.displayView[y * 8 + k]? = (rowBytes s.disp[y])[k]? := by
    rw [State.displayView, getElem?_flatMap_block rowBytes rowBytes_length _ y hk, hrow, Option.bind_some]
  rw [List.getElem!_eq_getElem?_getD, hbyte, List.getElem?_eq_getElem, Option.getD_some]

theorem Screen.pixel_of_lt (d : Screen) (x : Nat) {y : Nat} (hy : y < 32) : d.pixel x y = d[y].getMsbD x := dif_pos hy

/-- Settles O58: byte y * 8 + x div 8 is in row y, and its bits are the columns of R32. -/
theorem displayViewIsPacked : Obligations.DisplayViewIsPacked := by
  unfold Obligations.DisplayViewIsPacked
  refine fun s => ⟨s.displayView_length, fun px py hx hy => ?_⟩
  rw [s.displayView_getElem! hy (by omega), rowBytes_getLsbD _ (by omega) (by omega), Nat.div_add_mod]
  exact (s.disp.pixel_of_lt px hy).symm

end Sys2Proof.Machine

/-! # Memory: what stores change, and construction -/

namespace Sys2Proof.Machine

variable {s : State}

/-- What is read after a block store (20_memory.md R63, R66). -/
theorem State.readByte_storeBytes (s : State) (a : Nat) (bs : List Byte) (b : Nat) :
    (s.storeBytes a bs).readByte b =
      if a ≤ b ∧ b < a + bs.length then bs.getD (b - a) 0#8 else s.readByte b :=
  s.mem.get_setMany a bs b

theorem State.readByte_storeBytes_of_outside {a b : Nat} {bs : List Byte} (h : ¬ (a ≤ b ∧ b < a + bs.length)) :
    (s.storeBytes a bs).readByte b = s.readByte b := by
  rw [State.readByte_storeBytes, if_neg h]

/-- A block of registers stored at `a` holds V[k] at `a + k`. -/
theorem State.readByte_storeBytes_regsUpTo {x k : Reg} (a : Nat) (h : k.val ≤ x.val) :
    (s.storeBytes a (s.regsUpTo x)).readByte (a + k.val) = s.reg k := by
  rw [State.readByte_storeBytes, s.regsUpTo_length, if_pos (by omega), Nat.add_sub_cancel_left,
    s.regsUpTo_getD x k h]

/-- The test by which `Instr.storesAt` names a block of addresses. -/
theorem outside_of_block_test_eq_false {a b n : Nat} (h : (decide (a ≤ b) && decide (b < a + n)) = false) :
    ¬ (a ≤ b ∧ b < a + n) := by
  simpa using h

/-- A guarded store at I keeps every byte outside its addresses, and every address that does not exist: the check
refuses a block that reaches past memory (20_memory.md R53). Past the store, the instruction changes no memory. -/
theorem answers_withRange_storeBytes {go : State} {bs : List Byte} {n a : Nat} (hlen : bs.length = n)
    (hmem : go.mem = (s.storeBytes s.addressI bs).mem)
    (h : ¬ (s.addressI ≤ a ∧ a < s.addressI + n) ∨ Config.memSize ≤ a) :
    Answers (fun t => t.readByte a = s.readByte a) (s.withRange s.addressI n go) := by
  refine answers_withRange (fun _ _ => rfl) fun hrange => ?_
  rw [go.readByte_eq, hmem]
  exact State.readByte_storeBytes_of_outside (by omega)

/-- An instruction keeps every byte that R51 and R63 do not let it store to, and every address that does not exist. -/
theorem exec_keeps_byte (i : Instr) (s : State) {a : Nat} (h : i.storesAt s a = false ∨ Config.memSize ≤ a) :
    Answers (fun t => t.readByte a = s.readByte a) (exec i s) := by
  cases i with
  | ldB x =>
    exact answers_withRange_storeBytes (bcdDigits_length (s.reg x)) rfl (h.imp_left outside_of_block_test_eq_false)
  | dump x =>
    exact answers_withRange_storeBytes (s.regsUpTo_length x) rfl (h.imp_left outside_of_block_test_eq_false)
  | load x =>
    exact answers_withRange (fun _ _ => rfl) fun _ => congrArg (fun m => Memory.get m a) (s.setRegsFrom_mem 0 _)
  | drw _ _ _ => exact answers_withRange (fun _ _ => rfl) fun _ => rfl
  | ldVxK _ => exact answers_execLdVxK (fun _ => rfl) (fun _ _ => rfl) fun _ _ => rfl
  | ret => exact answers_execRet (fun _ => rfl) fun _ _ _ => rfl
  | cls | sys _ | jp _ | call _ | seImm _ _ | sneImm _ _ | seReg _ _ | ldImm _ _ | addImm _ _ | ldReg _ _ | orReg _ _
  | andReg _ _ | xorReg _ _ | addReg _ _ | subReg _ _ | shr _ _ | subnReg _ _ | shl _ _ | sneReg _ _ | ldI _ | jpV0 _
  | rnd _ _ | skp _ | sknp _ | ldVxDt _ | ldDtVx _ | ldStVx _ | addI _ | ldF _ => exact answers_next rfl

/-- Settles O44, by cases on the instruction in `exec_keeps_byte`: only FX33 and FX55 store, and their check comes
first. -/
theorem onlyNamedAddressesChange : Obligations.OnlyNamedAddressesChange := by
  unfold Obligations.OnlyNamedAddressesChange
  intro i s t a he h
  exact (exec_keeps_byte i s h).of_eq_next he

/-- FX55 whose addresses all exist stores V[0], ..., V[x] at I, ..., I + x (47_memory_ops.md R172). -/
theorem exec_dump_stores {x : Reg} (h : s.addressI + (x.val + 1) ≤ Config.memSize) :
    Answers (fun t => ∀ k : Reg, k.val ≤ x.val → t.readByte (s.addressI + k.val) = s.reg k) (exec (.dump x) s) :=
  ⟨_, State.withRange_ok _ (.inr h), fun _ hk => State.readByte_storeBytes_regsUpTo s.addressI hk⟩

/-- Settles O42: a fetch reads the memory of its own time, and FX55 left V[k] and V[k + 1] at the two addresses. -/
theorem storeIsSeenByFetch : Obligations.StoreIsSeenByFetch := by
  unfold Obligations.StoreIsSeenByFetch
  intro x k j s hin hj hjx
  obtain ⟨t, ht, hstored⟩ := exec_dump_stores (s := s) (x := x) hin
  refine ⟨t, ht, fun u hmem hpc => ?_⟩
  have hread (r : Reg) (hr : r.val ≤ x.val) : u.readByte (s.i.toNat + r.val) = s.reg r := by
    rw [u.readByte_eq, hmem]
    exact hstored r hr
  rw [State.fetch_ok (by omega), hpc, Nat.add_assoc, ← hj, hread k (by omega), hread j hjx]
  rfl

/-- With no program, the default `FONT` and `INIT_MEM` = 0x00, every byte is constructed as what memory reads as where
it lists nothing. -/
theorem constructedByte_default (a : Nat) : constructedByte fontBytes [] (fun _ => 0#8) a = Memory.initial a := by
  by_cases h : a < fontSize
  · rw [constructedByte_font h, Memory.initial, dif_pos h]
  · rw [constructedByte_initMem (by omega) (by simp only [List.length_nil]; omega), Memory.initial, dif_neg h]

/-- Settles O59: construction lists no byte, as reset does, and takes every other field from reset. -/
theorem resetIsDefaultConstruction : Obligations.ResetIsDefaultConstruction := by
  have hmem : Memory.ofImage (constructedByte fontBytes [] fun _ => 0#8) = State.reset.mem :=
    Memory.ofImage_eq_nil constructedByte_default
  unfold Obligations.ResetIsDefaultConstruction State.construct
  rw [if_neg (by decide), hmem]
  rfl

end Sys2Proof.Machine

/-! # The decoder and the encoder

`decodeWord_eq_select` reads a word by its high nibble and its fields. Both directions of the round trip follow it row
by row, and meet in `decodeWord_eq_some_iff`. -/

namespace Sys2Proof.Machine

variable {w : Word} {i : Instr}

/-- The word 00E0 is that of CLS and 00EE that of RET, not of SYS (30_encoding.md R74). -/
theorem wellFormed_sys_iff {nnn : Addr12} : WellFormed (.sys nnn) ↔ nnn ≠ 0x0E0#12 ∧ nnn ≠ 0x0EE#12 := by
  simp [WellFormed, Instr.wellFormed]

/-- The fields of an encoded instruction select its row again (30_encoding.md R78). -/
theorem decodeWord_encode (h : WellFormed i) : decodeWord (encode i) = some i := by
  rw [decodeWord_eq_select]
  cases i with
  | cls | ret => rfl
  | sys nnn =>
    obtain ⟨hcls, hret⟩ := wellFormed_sys_iff.mp h
    simp [encode, select, hcls, hret]
  | jp _ | call _ | seImm _ _ | sneImm _ _ | seReg _ _ | ldImm _ _ | addImm _ _ | sneReg _ _ | ldI _ | jpV0 _
  | rnd _ _ | drw _ _ _ | skp _ | sknp _ => simp [encode, select]
  | ldReg _ _ | orReg _ _ | andReg _ _ | xorReg _ _ | addReg _ _ | subReg _ _ | shr _ _ | subnReg _ _ | shl _ _ =>
    simp [encode, select, select8]
  | ldVxDt _ | ldVxK _ | ldDtVx _ | ldStVx _ | addI _ | ldF _ | ldB _ | dump _ | load _ =>
    simp [encode, select, selectF]

/-- The two bytes of a word, high byte first, are that word again (20_memory.md R60). -/
theorem wordOfBytes_extractLsb' (w : Word) : wordOfBytes (w.extractLsb' 8 8) (w.extractLsb' 0 8) = w := by
  apply BitVec.eq_of_toNat_eq
  rw [wordOfBytes_toNat, BitVec.extractLsb'_toNat, BitVec.extractLsb'_toNat, Nat.shiftRight_eq_div_pow]
  have := w.isLt
  omega

/-- Decoding a word's bytes decodes the word and leaves the bytes after it. -/
theorem decode_bytesOfWord_append (h : decodeWord w = some i) (rest : List Byte) :
    decode (bytesOfWord w ++ rest) = .ok (i, rest) := by
  simp [decode, bytesOfWord, wordOfBytes_extractLsb', h]

/-- Settles O1: `decodeWord_encode`, row by row, and the bytes of a word are read back as the word. -/
theorem decodeOfEncodeIsIdentity : Obligations.DecodeOfEncodeIsIdentity := by
  unfold Obligations.DecodeOfEncodeIsIdentity
  exact fun i h => ⟨decodeWord_encode h, decode_bytesOfWord_append (decodeWord_encode h)⟩

/-- A row of a selection: its instruction where its test holds, else the rows after it. -/
theorem forall_mem_ite_some {α : Type} {P : α → Prop} {c : Prop} [Decidable c] {a : α} {o : Option α}
    (ha : c → P a) (ho : ¬ c → ∀ b ∈ o, P b) : ∀ b ∈ if c then some a else o, P b := by
  split
  · next hc => simpa using ha hc
  · next hc => exact ho hc

theorem forall_mem_some {α : Type} {P : α → Prop} {a : α} (ha : P a) : ∀ b ∈ some a, P b := by
  simpa using ha

theorem encode_mem_select8 (f : Fields) :
    ∀ i ∈ select8 f, WellFormed i ∧ encode i = encodeXYN 0x8#4 f.x f.y f.n := by
  unfold select8
  iterate 9 refine forall_mem_ite_some (fun hn => ⟨rfl, by rw [hn, encode]⟩) fun _ => ?_
  simp

theorem encode_mem_selectF (f : Fields) :
    ∀ i ∈ selectF f, WellFormed i ∧ encode i = encodeXNN 0xF#4 f.x f.nn := by
  unfold selectF
  iterate 9 refine forall_mem_ite_some (fun hnn => ⟨rfl, by rw [hnn, encode]⟩) fun _ => ?_
  simp

/-- Every row's fields and fixed bits together are all of the word (30_encoding.md R78): by cases on the high nibble,
0 to F, with the word written in the form of the row. -/
theorem encode_mem_select {op : Nibble} {f : Fields} (hnnn : encodeNNN op f.nnn = w)
    (hxnn : encodeXNN op f.x f.nn = w) (hxyn : encodeXYN op f.x f.y f.n = w) :
    ∀ i ∈ select op f, WellFormed i ∧ encode i = w := by
  obtain rfl | rfl | rfl | rfl | rfl | rfl | rfl | rfl | rfl | rfl | rfl | rfl | rfl | rfl | rfl | rfl := nibble_cases op
  · refine forall_mem_ite_some (fun hcls => ⟨rfl, by rw [← hnnn, hcls]; rfl⟩) fun hcls => ?_
    refine forall_mem_ite_some (fun hret => ⟨rfl, by rw [← hnnn, hret]; rfl⟩) fun hret => ?_
    exact forall_mem_some ⟨wellFormed_sys_iff.mpr ⟨hcls, hret⟩, hnnn⟩
  · exact forall_mem_some ⟨rfl, hnnn⟩
  · exact forall_mem_some ⟨rfl, hnnn⟩
  · exact forall_mem_some ⟨rfl, hxnn⟩
  · exact forall_mem_some ⟨rfl, hxnn⟩
  · exact forall_mem_ite_some (fun hn => ⟨rfl, by rw [← hxyn, hn]; rfl⟩) fun _ => by simp
  · exact forall_mem_some ⟨rfl, hxnn⟩
  · exact forall_mem_some ⟨rfl, hxnn⟩
  · exact hxyn ▸ encode_mem_select8 f
  · exact forall_mem_ite_some (fun hn => ⟨rfl, by rw [← hxyn, hn]; rfl⟩) fun _ => by simp
  · exact forall_mem_some ⟨rfl, hnnn⟩
  · exact forall_mem_some ⟨rfl, hnnn⟩
  · exact forall_mem_some ⟨rfl, hxnn⟩
  · exact forall_mem_some ⟨rfl, hxyn⟩
  · refine forall_mem_ite_some (fun hnn => ⟨rfl, by rw [← hxnn, hnn]; rfl⟩) fun _ => ?_
    exact forall_mem_ite_some (fun hnn => ⟨rfl, by rw [← hxnn, hnn]; rfl⟩) fun _ => by simp
  · exact hxnn ▸ encode_mem_selectF f

/-- What a word decodes to is well-formed and has that word. -/
theorem encode_of_decodeWord (h : decodeWord w = some i) : WellFormed i ∧ encode i = w :=
  encode_mem_select (encodeNNN_fieldsOf w) (encodeXNN_fieldsOf w) (encodeXYN_fieldsOf w) i
    (decodeWord_eq_select w ▸ h)

/-- Settles O2: the row that a word selects gives back every bit of it. -/
theorem decodedWordReencodes : Obligations.DecodedWordReencodes := by
  unfold Obligations.DecodedWordReencodes
  exact fun _ _ => encode_of_decodeWord

/-- Decoding and encoding are inverse: each word is that of at most one well-formed instruction. -/
theorem decodeWord_eq_some_iff : decodeWord w = some i ↔ WellFormed i ∧ encode i = w :=
  ⟨encode_of_decodeWord, fun ⟨hwf, he⟩ => he ▸ decodeWord_encode hwf⟩

theorem encode_sys_eq_iff {nnn : Addr12} : encode (.sys nnn) = w ↔ w.toNat = nnn.toNat := by
  rw [← BitVec.toNat_inj, encode, encodeNNN_toNat, show (0x0#4).toNat = 0 from rfl, Nat.zero_mul, Nat.zero_add,
    eq_comm]

/-- Settles O4: a SYS word is well-formed unless it is one of the two exact words. -/
theorem exactWordsBeforeSys : Obligations.ExactWordsBeforeSys := by
  unfold Obligations.ExactWordsBeforeSys
  refine ⟨decodeWord_encode (i := .cls) rfl, decodeWord_encode (i := .ret) rfl, fun w nnn => ?_⟩
  rw [decodeWord_eq_some_iff, encode_sys_eq_iff, wellFormed_sys_iff, and_comm, and_congr_right_iff]
  intro hw
  simp only [ne_eq, ← BitVec.toNat_inj, hw, BitVec.toNat_ofNat, Nat.reducePow, Nat.reduceMod]

/-- Settles O3: each word is the encoding of its instruction; 8008 selects no row. -/
theorem patternWordsDecode : Obligations.PatternWordsDecode := by
  unfold Obligations.PatternWordsDecode
  simp only [decodeWord_eq_some_iff]
  decide

/-! The unimplemented words (30_encoding.md R80). -/

theorem opOf_toNat (w : Word) : (opOf w).toNat = w.toNat / 0x1000 := by
  rw [opOf, BitVec.extractLsb'_toNat, Nat.shiftRight_eq_div_pow]
  have := w.isLt
  omega

theorem ite_some_eq_none_iff {α : Type} {c : Prop} [Decidable c] {a : α} {o : Option α} :
    (if c then some a else o) = none ↔ ¬ c ∧ o = none := by
  split <;> simp_all

theorem select8_eq_none_iff {f : Fields} : select8 f = none ↔ f.n.toNat ∈ [8, 9, 10, 11, 12, 13, 15] := by
  have := f.n.isLt
  simp only [select8, ite_some_eq_none_iff, ← BitVec.toNat_inj, BitVec.toNat_ofNat, List.mem_cons, List.not_mem_nil,
    or_false, and_true]
  omega

theorem selectF_eq_none_iff {f : Fields} :
    selectF f = none ↔ f.nn.toNat ∉ [0x07, 0x0A, 0x15, 0x18, 0x1E, 0x29, 0x33, 0x55, 0x65] := by
  simp [selectF, ite_some_eq_none_iff, ← BitVec.toNat_inj]

/-- The rows of R80's table that hold under either value of `DECODE_59_MASK`: the words of the families 8, E and F that
match no pattern. -/
def InEitherMaskRows (w : Word) : Prop :=
  (w.toNat / 0x1000 = 8 ∧ w.toNat % 16 ∈ [8, 9, 10, 11, 12, 13, 15]) ∨
  (w.toNat / 0x1000 = 14 ∧ w.toNat % 256 ∉ [0x9E, 0xA1]) ∨
  (w.toNat / 0x1000 = 15 ∧ w.toNat % 256 ∉ [0x07, 0x0A, 0x15, 0x18, 0x1E, 0x29, 0x33, 0x55, 0x65])

theorem InEitherMaskRows.family (h : InEitherMaskRows w) :
    w.toNat / 0x1000 = 8 ∨ w.toNat / 0x1000 = 14 ∨ w.toNat / 0x1000 = 15 :=
  h.imp And.left (Or.imp And.left And.left)

/-- Under the mask 0xF00F, the words 5XYn and 9XYn with n not 0 are unimplemented too. -/
theorem decodeWord_eq_none_iff : decodeWord w = none ↔
    InEitherMaskRows w ∨ ((w.toNat / 0x1000 = 5 ∨ w.toNat / 0x1000 = 9) ∧ w.toNat % 16 ≠ 0) := by
  rw [decodeWord_eq_select, InEitherMaskRows, ← opOf_toNat, ← fieldsOf_n_toNat, ← fieldsOf_nn_toNat]
  generalize opOf w = op, fieldsOf w = f
  obtain rfl | rfl | rfl | rfl | rfl | rfl | rfl | rfl | rfl | rfl | rfl | rfl | rfl | rfl | rfl | rfl := nibble_cases op
  all_goals
    simp [select, select8_eq_none_iff, selectF_eq_none_iff, ite_some_eq_none_iff, ← BitVec.toNat_inj]

/-- A word that matches the first candidate of its high nibble is that candidate's instruction. -/
theorem decodeWith_of_candidates {mask59 : Word} {p : Pattern} {ps : List Pattern}
    (hc : candidates mask59 (opOf w) = p :: ps) (hp : restOf w &&& restOf p.mask = restOf p.value) :
    decodeWith mask59 w = some (p.build (fieldsOf w)) := by
  conv_lhs => rw [← encodeNNN_opOf_restOf w]
  rw [decodeWith_encodeNNN, hc, search_cons, if_pos hp, encodeNNN_opOf_restOf]

/-- The two masks differ in the families 5 and 9 only. -/
theorem candidates_F000 {op : Nibble} (h5 : op ≠ 0x5#4) (h9 : op ≠ 0x9#4) :
    candidates 0xF000#16 op = candidates Config.decode59Mask op := by
  have hmask (op : Nibble) : op &&& 0xF#4 = op := BitVec.and_allOnes
  simp [candidates, patterns, registerPairPatterns, List.filter_cons, opOf, Config.decode59Mask, hmask, h5, h9]

/-- The mask 0xF000 decodes 5XYn and 9XYn for every n, and every other word as 0xF00F does (30_encoding.md R73). -/
theorem decodeWith_F000 (w : Word) : decodeWith 0xF000#16 w =
    if opOf w = 0x5#4 then some (.seReg (fieldsOf w).x (fieldsOf w).y)
    else if opOf w = 0x9#4 then some (.sneReg (fieldsOf w).x (fieldsOf w).y) else decodeWord w := by
  split_ifs with h5 h9
  · exact decodeWith_of_candidates (p := ⟨0xF000#16, 0x5000#16, fun f => .seReg f.x f.y⟩) (by rw [h5]; rfl)
      BitVec.and_zero
  · exact decodeWith_of_candidates (p := ⟨0xF000#16, 0x9000#16, fun f => .sneReg f.x f.y⟩) (by rw [h9]; rfl)
      BitVec.and_zero
  · rw [decodeWord, ← encodeNNN_opOf_restOf w, decodeWith_encodeNNN, decodeWith_encodeNNN, candidates_F000 h5 h9]

theorem decodeWith_F000_eq_none_iff : decodeWith 0xF000#16 w = none ↔ InEitherMaskRows w := by
  rw [decodeWith_F000, ite_some_eq_none_iff, ite_some_eq_none_iff, decodeWord_eq_none_iff, ← BitVec.toNat_inj,
    ← BitVec.toNat_inj, opOf_toNat]
  constructor
  · rintro ⟨h5, h9, hrows | ⟨h59, -⟩⟩
    · exact hrows
    · exact (h59.elim h5 h9).elim
  · intro hrows
    obtain h | h | h := hrows.family <;> exact ⟨by rw [h]; decide, by rw [h]; decide, .inl hrows⟩

/-- Settles O5: the families by their high nibble, under each mask. -/
theorem unimplementedWordsExactly : Obligations.UnimplementedWordsExactly := by
  unfold Obligations.UnimplementedWordsExactly
  intro w
  rw [decodeWith_F000_eq_none_iff, decodeWord_eq_none_iff]
  exact ⟨.rfl, .rfl⟩

/-- Settles O50: every case of a step answers a next state, by `step_keeps_keypad`. -/
theorem stepAlwaysAnswersNext : Obligations.StepAlwaysAnswersNext := by
  unfold Obligations.StepAlwaysAnswersNext
  intro s
  obtain ⟨t, ht, -⟩ := step_keeps_keypad s
  exact ⟨t, ht⟩

end Sys2Proof.Machine

/-! # The step: its order, the delay gate and the halt

One equation per case of R91, each under that case's condition, and what a number of steps or transactions makes of
it. -/

namespace Sys2Proof.Machine

variable {s t u : State} {w : Word} {i : Instr}

/-- Settles O48: `max pc 4096` is pc where that byte is missing, and pc + 1 where only the next one is. -/
theorem fetchResult : Obligations.FetchResult := by
  unfold Obligations.FetchResult
  refine fun s => ⟨fun hin => ⟨_, State.fetch_ok hin, wordOfBytes_toNat _ _⟩, fun hpc => ?_, fun hlast => ?_⟩
  · rw [State.fetch_bad (by omega), Nat.max_eq_left hpc]
  · rw [State.fetch_bad (by omega), Nat.max_eq_right (by omega), hlast]

theorem execWord_of_decodes (h : decodeWord w = some i) (s : State) : execWord w s = exec i s := by
  rw [execWord, h]

theorem execWord_of_unimplemented (h : decodeWord w = none) (s : State) :
    execWord w s = .next (s.signalUnimplemented w).advance := by
  rw [execWord, h, execUnimplemented]

theorem step_of_halted (h : s.halted = true) : step s = .next s := if_pos h

theorem step_of_running (h : s.halted = false) : step s =
    if s.dt = 0#8 then executeOne { s with st := s.stAfter }
    else .next (State.tickDelay { s with st := s.stAfter }) := by
  rw [step, cycle, if_neg (by simp [h]), State.tickSound_eq]

/-- A fetch reads pc and memory, which the sound timer leaves alone. -/
theorem fetch_ticked (s : State) : State.fetch { s with st := s.stAfter } = s.fetch := rfl

theorem step_of_fetched (hrun : s.halted = false) (hdt : s.dt = 0#8) (hf : s.fetch = .ok w) :
    step s = execWord w { s with st := s.stAfter } := by
  rw [step_of_running hrun, if_pos hdt, executeOne, fetch_ticked, hf]

theorem step_of_fetch_fault {f : Fault} (hrun : s.halted = false) (hdt : s.dt = 0#8) (hf : s.fetch = .error f) :
    step s = .next (State.raise { s with st := s.stAfter } f) := by
  rw [step_of_running hrun, if_pos hdt, executeOne, fetch_ticked, hf]

/-- Settles O46: the step fetches the word of `i`, and the dispatch of this word is `exec i`. -/
theorem stepRunsDecodedInstruction : Obligations.StepRunsDecodedInstruction := by
  unfold Obligations.StepRunsDecodedInstruction
  rintro s i ⟨hrun, hdt, hpc, hdecode⟩
  rw [step_of_fetched hrun hdt (State.fetch_ok hpc)]
  exact execWord_of_decodes hdecode _

/-- `t` is `s` with both timers counted `n` times, each as far as 0, and nothing else changed. -/
def State.TimersCounted (n : Nat) (s t : State) : Prop :=
  t = { s with dt := t.dt, st := t.st } ∧ t.dt.toNat = s.dt.toNat - n ∧ t.st.toNat = s.st.toNat - n

theorem State.timersCounted_zero (s : State) : s.TimersCounted 0 s := ⟨rfl, rfl, rfl⟩

theorem State.TimersCounted.trans {m n : Nat} (hst : s.TimersCounted m t) (htu : t.TimersCounted n u) :
    s.TimersCounted (m + n) u := by
  obtain ⟨ht, htdt, htst⟩ := hst
  obtain ⟨hu, hudt, hust⟩ := htu
  refine ⟨?_, by omega, by omega⟩
  rw [hu, ht]

theorem State.TimersCounted.halted_eq {n : Nat} (h : s.TimersCounted n t) : t.halted = s.halted := by rw [h.1]

/-- With DT not 0, a step counts both timers once and executes nothing (40_cycle.md R91). -/
theorem step_counts_timers (hrun : s.halted = false) (hdt : s.dt ≠ 0#8) : Answers (s.TimersCounted 1) (step s) := by
  rw [step_of_running hrun, if_neg hdt, State.tickDelay_eq]
  exact answers_next ⟨rfl, State.tickDelay_dt_toNat _, s.stAfter_toNat⟩

/-- While DT lasts, every step of a run counts the timers (70_reset_and_hazards.md R206). -/
theorem run_counts_timers (n : Nat) (hrun : s.halted = false) (hn : n ≤ s.dt.toNat) :
    Answers (s.TimersCounted n) (core.run n s) := by
  induction n generalizing s with
  | zero => exact answers_next s.timersCounted_zero
  | succ n ih =>
    have hdt : s.dt ≠ 0#8 := fun h0 => by simp [h0] at hn
    obtain ⟨t, ht, hcount⟩ := step_counts_timers hrun hdt
    have htn : n ≤ t.dt.toNat := by
      have := hcount.2.1
      omega
    obtain ⟨u, hu, hrest⟩ := ih (hcount.halted_eq.trans hrun) htn
    exact ⟨u, (core_run_succ n ht).trans hu, Nat.add_comm n 1 ▸ hcount.trans hrest⟩

/-- Settles O36, by induction on the number of steps: each finds DT not 0. -/
theorem delayTimerSuspendsExecution : Obligations.DelayTimerSuspendsExecution := by
  unfold Obligations.DelayTimerSuspendsExecution
  exact fun n _ hrun hn => run_counts_timers n hrun hn

/-- Settles O47, by the halt, then DT, then the fetch, then the decoding. -/
theorem stepOrder : Obligations.StepOrder := by
  unfold Obligations.StepOrder
  refine fun s => ⟨step_of_halted, fun hrun hdt => ?_, fun hrun hdt hpc => ?_, fun hrun hdt hpc => ?_⟩
  · obtain ⟨t, ht, hframe, hdt', hst'⟩ := step_counts_timers hrun hdt
    exact ⟨t, ht, hframe, hst', hdt'⟩
  · have hstep := step_of_fetched hrun hdt (State.fetch_ok hpc)
    refine ⟨_, wordOfBytes_toNat _ _, fun i hi => ?_, fun hnone => ?_⟩
    · rw [hstep, execWord_of_decodes hi]
    · exact ⟨_, hstep.trans (execWord_of_unimplemented hnone _), rfl, BitVec.toNat_add s.pc 2#16⟩
  · exact step_of_fetch_fault hrun hdt (State.fetch_bad hpc)

/-- `t` is `s` but for what the host's keys write: the key flags, the latch and the key event (10_state.md R39, R40). -/
def State.SameButKeys (s t : State) : Prop := t = { s with keys := t.keys, latch := t.latch, keyEvent := t.keyEvent }

theorem State.SameButKeys.trans (hst : s.SameButKeys t) (htu : t.SameButKeys u) : s.SameButKeys u := by
  unfold State.SameButKeys at *
  rw [htu, hst]

theorem State.SameButKeys.halted_eq (h : s.SameButKeys t) : t.halted = s.halted := by rw [h]

/-- On a halted core a transaction changes the keypad alone (40_cycle.md R92). -/
theorem transact_of_halted (h : s.halted = true) (tr : Transaction) : Answers s.SameButKeys (transact s tr) := by
  cases tr with
  | step => exact ⟨s, step_of_halted h, rfl⟩
  | press _ | release _ => exact answers_next rfl

/-- On a halted core, taking the steps out of a sequence of transactions changes nothing. -/
theorem runTransactions_filter_of_halted (h : s.halted = true) (ts : List Transaction) :
    runTransactions s (ts.filter (fun x => x != .step)) = runTransactions s ts := by
  induction ts generalizing s with
  | nil => rfl
  | cons tr ts ih =>
    cases tr with
    | step => exact (ih h).trans (runTransactions_cons .step ts (step_of_halted h)).symm
    | press k => exact ih (s := s.press k) h
    | release k => exact ih (s := s.release k) h

/-- Settles O49: every transaction keeps the halt and all but the keys, and steps can be taken out. -/
theorem haltIsForever : Obligations.HaltIsForever := by
  unfold Obligations.HaltIsForever
  intro ts s h
  have hkeep (u : State) (tr : Transaction) (hu : s.SameButKeys u) : Answers s.SameButKeys (transact u tr) := by
    obtain ⟨t, ht, hut⟩ := transact_of_halted (hu.halted_eq.trans h) tr
    exact ⟨t, ht, hu.trans hut⟩
  obtain ⟨t, ht, hframe⟩ := answers_runTransactions (s := s) hkeep rfl ts
  exact ⟨t, ht, hframe, t, (runTransactions_filter_of_halted h ts).trans ht, rfl⟩

end Sys2Proof.Machine

/-! # Control flow

The words of the six instructions by the round trip, an equation for each branch of RET and CALL, and the value of
the new pc as a number. -/

namespace Sys2Proof.Machine

variable {s : State} {i : Instr}

theorem decodeWord_eq_some_iff_eq_encode (h : WellFormed i) (w : Word) : decodeWord w = some i ↔ w = encode i := by
  rw [decodeWord_eq_some_iff, and_iff_right h, eq_comm]

/-- The word of an instruction of the form op, nnn, written by arithmetic on its fields (30_encoding.md R71). -/
theorem decodeWord_wordNNN_of_encode {op : Nat} {nnn : Addr12} (hwf : WellFormed i)
    (hi : encode i = encodeNNN (BitVec.ofNat 4 op) nnn) : decodeWord (wordNNN op nnn) = some i := by
  rw [wordNNN_eq, ← hi, decodeWord_encode hwf]

/-- The address of the instruction after the one at `w` (40_cycle.md R95). -/
theorem toNat_add_two (w : Word) : (w + 2#16).toNat = (w.toNat + 2) % 0x10000 := BitVec.toNat_add w 2#16

/-- The target of BNNN is at most 0x10FE (10_state.md R27), so the sum does not wrap. -/
theorem targetOf_add_regWord_toNat (nnn : Addr12) (s : State) (x : Reg) :
    (targetOf nnn + s.regWord x).toNat = nnn.toNat + (s.reg x).toNat := by
  have hn := nnn.isLt
  have hr := (s.reg x).isLt
  rw [BitVec.toNat_add, targetOf_toNat, s.regWord_toNat]
  exact Nat.mod_eq_of_lt (by omega)

theorem exec_ret_of_empty (h : s.stack = []) : exec .ret s = .next (s.raise (.stackUnderflow s.pc)) := by
  rw [exec, execRet, h]

theorem exec_ret_of_cons {a : Word} {rest : List Word} (h : s.stack = a :: rest) :
    exec .ret s = .next ((s.setStack rest).setPc (a + 2#16)) := by
  rw [exec, execRet, h]

theorem stackFull_some_iff {d : Nat} {l : List Word} : stackFull (some d) l = true ↔ d ≤ l.length :=
  decide_eq_true_iff

theorem callWith_of_full {limit : Option Nat} (nnn : Addr12) (h : stackFull limit s.stack = true) :
    callWith limit nnn s = .next (s.raise (.stackOverflow s.pc)) := if_pos h

theorem callWith_of_not_full {limit : Option Nat} (nnn : Addr12) (h : ¬ stackFull limit s.stack = true) :
    callWith limit nnn s = .next ((s.push s.pc).setPc (targetOf nnn)) := if_neg h

/-- The stack of this machine has no limit, so it is never full (10_state.md R29). -/
theorem exec_call (nnn : Addr12) (s : State) :
    exec (.call nnn) s = .next ((s.push s.pc).setPc (targetOf nnn)) :=
  callWith_of_not_full (limit := Config.stackLimit) nnn Bool.false_ne_true

/-- Settles O7: an equation of RET for each form of the stack. -/
theorem retResult : Obligations.RetResult := by
  unfold Obligations.RetResult
  exact ⟨decodeWord_eq_some_iff_eq_encode rfl, fun _ hempty => exec_ret_of_empty hempty,
    fun _ a _ hcons => ⟨_, exec_ret_of_cons hcons, rfl, toNat_add_two a⟩⟩

/-- Settles O10: a limit that the stack has reached makes it full, and below the limit it is as without one. -/
theorem callResult : Obligations.CallResult := by
  unfold Obligations.CallResult
  refine fun nnn s => ⟨decodeWord_wordNNN_of_encode rfl rfl, ⟨_, exec_call nnn s, rfl, targetOf_toNat nnn⟩,
    fun d => ⟨fun hreached => ?_, fun hbelow => ?_⟩⟩
  · exact callWith_of_full nnn (stackFull_some_iff.mpr hreached.ge)
  · have hfree : ¬ stackFull (some d) s.stack = true := mt stackFull_some_iff.mp hbelow.not_ge
    rw [callWith_of_not_full nnn hfree, exec_call]

/-- Settles O12: the entry that RET pops is the address CALL pushed. -/
theorem callThenRetReturns : Obligations.CallThenRetReturns := by
  unfold Obligations.CallThenRetReturns
  refine fun nnn s => ⟨_, exec_call nnn s, fun u hu => ?_⟩
  have hpushed : u.stack = s.pc :: s.stack := hu
  exact ⟨_, exec_ret_of_cons hpushed, rfl, toNat_add_two s.pc⟩

/-- Settles O6: the display is the clear one, and only pc besides it is written. -/
theorem clsResult : Obligations.ClsResult := by
  unfold Obligations.ClsResult
  exact ⟨decodeWord_eq_some_iff_eq_encode rfl,
    fun s => ⟨_, rfl, rfl, toNat_add_two s.pc, fun px py _ _ => Screen.pixel_clear px py⟩⟩

/-- Settles O8: but for the two exact words, the word is that of a well-formed SYS. -/
theorem sysResult : Obligations.SysResult := by
  unfold Obligations.SysResult
  exact ⟨fun _ hcls hret => decodeWord_wordNNN_of_encode (wellFormed_sys_iff.mpr ⟨hcls, hret⟩) rfl,
    fun _ s => ⟨_, rfl, rfl, toNat_add_two s.pc⟩⟩

/-- Settles O9: the target is nnn with zeros above it. -/
theorem jpResult : Obligations.JpResult := by
  unfold Obligations.JpResult
  exact fun nnn _ => ⟨decodeWord_wordNNN_of_encode rfl rfl, _, rfl, rfl, targetOf_toNat nnn⟩

/-- Settles O11: the sum of the zero-extended nnn and V0 does not wrap. -/
theorem jpV0Result : Obligations.JpV0Result := by
  unfold Obligations.JpV0Result
  exact fun nnn s =>
    ⟨decodeWord_wordNNN_of_encode rfl rfl, _, rfl, rfl, targetOf_add_regWord_toNat nnn s Reg.v0⟩

end Sys2Proof.Machine

/-! # Skips

The words of the form op, x, nn and op, x, y, n by the round trip, as those of the form op, nnn above, and the pc that
a skip leaves, as a number. -/

namespace Sys2Proof.Machine

variable {i : Instr} {op : Nat} {x y : Reg}

/-- The word of an instruction of the form op, x, nn, written by arithmetic on its fields (30_encoding.md R71). -/
theorem decodeWord_wordXNN_of_encode {nn : Byte} (hwf : WellFormed i)
    (hi : encode i = encodeXNN (BitVec.ofNat 4 op) x nn) : decodeWord (wordXNN op x nn.toNat) = some i := by
  rw [wordXNN_eq op x _ nn.isLt, BitVec.ofNat_toNat, BitVec.setWidth_eq, ← hi, decodeWord_encode hwf]

/-- The word of an instruction of the form op, x, y, n, written by arithmetic on its fields (R71). -/
theorem decodeWord_wordXYN_of_encode {n : Nibble} (hwf : WellFormed i)
    (hi : encode i = encodeXYN (BitVec.ofNat 4 op) x y n) : decodeWord (wordXYN op x y n.toNat) = some i := by
  rw [wordXYN_eq op x y _ n.isLt, BitVec.ofNat_toNat, BitVec.setWidth_eq, ← hi, decodeWord_encode hwf]

theorem wordXYN_toNat {n : Nat} (hop : op < 16) (hn : n < 16) :
    (wordXYN op x y n).toNat = op * 0x1000 + x.val * 0x100 + y.val * 0x10 + n := by
  rw [wordXYN, BitVec.toNat_ofNat]
  omega

/-- 5XYn and 9XYn with n not 0 are rows of R80's table (the spec's decision D10). -/
theorem decodeWord_wordXYN_eq_none {n : Nat} (hop : op = 5 ∨ op = 9) (hpos : 0 < n) (hn : n < 16) :
    decodeWord (wordXYN op x y n) = none := by
  have hword : (wordXYN op x y n).toNat = op * 0x1000 + x.val * 0x100 + y.val * 0x10 + n :=
    wordXYN_toNat (by omega) hn
  exact decodeWord_eq_none_iff.mpr (.inr ⟨by omega, by omega⟩)

/-- Skip opcodes advance by 4 when the skip condition holds, else by 2 (42_skips.md R114). -/
theorem State.skipIf_pc_toNat (s : State) (taken : Bool) :
    (s.skipIf taken).pc.toNat = (s.pc.toNat + if taken then 4 else 2) % 0x10000 := by
  cases taken with
  | true => exact BitVec.toNat_add s.pc 4#16
  | false => exact BitVec.toNat_add s.pc 2#16

theorem State.skipIf_beq_pc_toNat (s : State) (a b : Byte) :
    (s.skipIf (a == b)).pc.toNat = (s.pc.toNat + if a.toNat = b.toNat then 4 else 2) % 0x10000 := by
  simp only [State.skipIf_pc_toNat, beq_iff_eq, BitVec.toNat_inj]

theorem State.skipIf_bne_pc_toNat (s : State) (a b : Byte) :
    (s.skipIf (a != b)).pc.toNat = (s.pc.toNat + if a.toNat = b.toNat then 2 else 4) % 0x10000 := by
  simp only [State.skipIf_pc_toNat, bne_iff_ne, BitVec.toNat_inj, ite_not]

/-- Settles O13: both words by the round trip, and the pc that a skip on (in)equality leaves. -/
theorem skipImmediateResult : Obligations.SkipImmediateResult := by
  unfold Obligations.SkipImmediateResult
  exact fun x nn s => ⟨decodeWord_wordXNN_of_encode rfl rfl, decodeWord_wordXNN_of_encode rfl rfl,
    ⟨_, rfl, rfl, s.skipIf_beq_pc_toNat (s.reg x) nn⟩, _, rfl, rfl, s.skipIf_bne_pc_toNat (s.reg x) nn⟩

/-- Settles O14: as O13, with the other words of the two families among the unimplemented ones. -/
theorem skipRegisterResult : Obligations.SkipRegisterResult := by
  unfold Obligations.SkipRegisterResult
  refine fun x y s => ⟨decodeWord_wordXYN_of_encode (n := 0x0#4) rfl rfl,
    decodeWord_wordXYN_of_encode (n := 0x0#4) rfl rfl, fun n hpos hn => ⟨?_, ?_⟩,
    ⟨_, rfl, rfl, s.skipIf_beq_pc_toNat (s.reg x) (s.reg y)⟩,
    _, rfl, rfl, s.skipIf_bne_pc_toNat (s.reg x) (s.reg y)⟩
  · exact decodeWord_wordXYN_eq_none (.inl rfl) hpos hn
  · exact decodeWord_wordXYN_eq_none (.inr rfl) hpos hn

end Sys2Proof.Machine

/-! # The ALU

The value of each flag as a number, what a register holds after a result and after a result with its flag, and the
answer the two forms of an ALU instruction share; each instruction then adds its own arithmetic. -/

namespace Sys2Proof.Machine

variable {s : State} {x : Reg} {b f : Byte}

theorem flagOf_toNat (c : Bool) : (flagOf c).toNat = if c then 1 else 0 := by cases c <;> rfl

theorem carryFlag_toNat (a b : Byte) : (carryFlag a b).toNat = if a.toNat + b.toNat > 255 then 1 else 0 := by
  simp only [carryFlag, flagOf_toNat, decide_eq_true_eq]

theorem notBorrowFlag_toNat (a b : Byte) : (notBorrowFlag a b).toNat = if a.toNat < b.toNat then 0 else 1 := by
  simp only [notBorrowFlag, flagOf_toNat, Bool.not_eq_true', decide_eq_false_iff_not, ite_not]

theorem lsbFlag_toNat (a : Byte) : (lsbFlag a).toNat = a.toNat % 2 := by
  rw [lsbFlag, BitVec.toNat_and]
  exact Nat.and_one_is_mod _

theorem msbFlag_toNat (a : Byte) : (msbFlag a).toNat = a.toNat / 128 := by
  rw [msbFlag, BitVec.toNat_ushiftRight, Nat.shiftRight_eq_div_pow]

/-- `(a - b) mod 256`, the 256 added before the difference is taken (43_alu.md R127, R129). -/
theorem toNat_sub_eq_add_sub_mod (a b : Byte) : (a - b).toNat = (256 + a.toNat - b.toNat) % 256 := by
  rw [BitVec.toNat_sub, Nat.sub_add_comm b.isLt.le]

theorem toNat_ushiftRight_one (a : Byte) : (a >>> 1).toNat = a.toNat / 2 := by
  rw [BitVec.toNat_ushiftRight, Nat.shiftRight_eq_div_pow, pow_one]

theorem toNat_shiftLeft_one (a : Byte) : (a <<< 1).toNat = a.toNat * 2 % 256 := by
  rw [BitVec.toNat_shiftLeft, Nat.shiftLeft_eq, pow_one]

/-- The policy chooses the register whose value is shifted (43_alu.md R128, R130). -/
theorem State.reg_ite_shiftSrcVy (s : State) (x y : Reg) :
    s.reg (if s.cfg.shiftSrcVy then y else x) = s.shiftSource x y := apply_ite s.reg _ _ _

/-- A reading `g` of every register after a write to Vx. -/
theorem State.apply_reg_setReg {α : Type} {a : α} (g : Byte → α) (hb : g b = a) (r : Reg) :
    g ((s.setReg x b).reg r) = if r = x then a else g (s.reg r) := by
  rw [State.reg_setReg, apply_ite g, hb]

/-- The flag is written last, so at x = 15 it is what VF holds (00_scope.md R12, 43_alu.md R132). -/
theorem State.reg_setRegFlag_toNat {m n : Nat} (hb : b.toNat = m) (hf : f.toNat = n) (r : Reg) :
    ((s.setRegFlag x b f).reg r).toNat = if r = 15 then n else if r = x then m else (s.reg r).toNat := by
  rw [State.setRegFlag_eq, State.apply_reg_setReg BitVec.toNat hf, State.apply_reg_setReg BitVec.toNat hb]

/-- An ALU instruction without a flag writes Vx and pc; `g` reads the registers. -/
theorem finishAlu_answers {α : Type} {a : α} (g : Byte → α) (hb : g b = a) : ∃ t, finishAlu s x b = .next t ∧
    t = { s with v := t.v, pc := t.pc } ∧ t.pc.toNat = (s.pc.toNat + 2) % 0x10000 ∧
    ∀ r, g (t.reg r) = if r = x then a else g (s.reg r) :=
  ⟨_, rfl, rfl, toNat_add_two s.pc, State.apply_reg_setReg g hb⟩

/-- The same, read bit by bit. -/
theorem finishAlu_answers_bits {p : Nat → Bool} (hb : ∀ k, b.getLsbD k = p k) : ∃ t, finishAlu s x b = .next t ∧
    t = { s with v := t.v, pc := t.pc } ∧ t.pc.toNat = (s.pc.toNat + 2) % 0x10000 ∧
    ∀ r k, (t.reg r).getLsbD k = if r = x then p k else (s.reg r).getLsbD k :=
  ⟨_, rfl, rfl, toNat_add_two s.pc, fun r k => State.apply_reg_setReg (·.getLsbD k) (hb k) r⟩

/-- An ALU instruction with a flag writes Vx, VF and pc. -/
theorem finishAluFlag_answers {m n : Nat} (hb : b.toNat = m) (hf : f.toNat = n) :
    ∃ t, finishAluFlag s x b f = .next t ∧
      t = { s with v := t.v, pc := t.pc } ∧ t.pc.toNat = (s.pc.toNat + 2) % 0x10000 ∧
      ∀ r, (t.reg r).toNat = if r = 15 then n else if r = x then m else (s.reg r).toNat :=
  ⟨_, rfl, rfl, toNat_add_two s.pc, State.reg_setRegFlag_toNat hb hf⟩

/-- Settles O15: the immediate itself, and the wrapped sum read as a number. -/
theorem immediateResult : Obligations.ImmediateResult := by
  unfold Obligations.ImmediateResult
  exact fun x nn s => ⟨decodeWord_wordXNN_of_encode rfl rfl, decodeWord_wordXNN_of_encode rfl rfl,
    finishAlu_answers id rfl, finishAlu_answers BitVec.toNat (BitVec.toNat_add (s.reg x) nn)⟩

/-- Settles O16: the copy as a byte, the three bitwise operations bit by bit. -/
theorem copyAndLogicResult : Obligations.CopyAndLogicResult := by
  unfold Obligations.CopyAndLogicResult
  exact fun x y s =>
    ⟨⟨decodeWord_wordXYN_of_encode (n := 0x0#4) rfl rfl, finishAlu_answers id rfl⟩,
      ⟨decodeWord_wordXYN_of_encode (n := 0x1#4) rfl rfl, finishAlu_answers_bits fun _ => BitVec.getLsbD_or⟩,
      ⟨decodeWord_wordXYN_of_encode (n := 0x2#4) rfl rfl, finishAlu_answers_bits fun _ => BitVec.getLsbD_and⟩,
      ⟨decodeWord_wordXYN_of_encode (n := 0x3#4) rfl rfl, finishAlu_answers_bits fun _ => BitVec.getLsbD_xor⟩⟩

/-- Settles O17: the wrapped sum, then the carry. -/
theorem addResult : Obligations.AddResult := by
  unfold Obligations.AddResult
  exact fun x y s => ⟨decodeWord_wordXYN_of_encode (n := 0x4#4) rfl rfl,
    finishAluFlag_answers (BitVec.toNat_add (s.reg x) (s.reg y)) (carryFlag_toNat _ _)⟩

/-- Settles O18: the wrapped difference Vx - Vy, then not-borrow. -/
theorem subResult : Obligations.SubResult := by
  unfold Obligations.SubResult
  exact fun x y s => ⟨decodeWord_wordXYN_of_encode (n := 0x5#4) rfl rfl,
    finishAluFlag_answers (toNat_sub_eq_add_sub_mod _ _) (notBorrowFlag_toNat _ _)⟩

/-- Settles O19: the wrapped difference Vy - Vx, then not-borrow. -/
theorem subnResult : Obligations.SubnResult := by
  unfold Obligations.SubnResult
  exact fun x y s => ⟨decodeWord_wordXYN_of_encode (n := 0x7#4) rfl rfl,
    finishAluFlag_answers (toNat_sub_eq_add_sub_mod _ _) (notBorrowFlag_toNat _ _)⟩

/-- Settles O20: half the shift source, then its parity. -/
theorem shrResult : Obligations.ShrResult := by
  unfold Obligations.ShrResult
  intro x y s
  rw [s.reg_ite_shiftSrcVy x y]
  exact ⟨decodeWord_wordXYN_of_encode (n := 0x6#4) rfl rfl,
    finishAluFlag_answers (toNat_ushiftRight_one _) (lsbFlag_toNat _)⟩

/-- Settles O21: the shift source doubled mod 256, then its top bit. -/
theorem shlResult : Obligations.ShlResult := by
  unfold Obligations.ShlResult
  intro x y s
  rw [s.reg_ite_shiftSrcVy x y]
  exact ⟨decodeWord_wordXYN_of_encode (n := 0xE#4) rfl rfl,
    finishAluFlag_answers (toNat_shiftLeft_one _) (msbFlag_toNat _)⟩

end Sys2Proof.Machine

/-! # Address register and random

The wrapped sum of FX1E as a number, and what one CXNN takes from the count of draws. -/

namespace Sys2Proof.Machine

/-- The sum of FX1E wraps at 16 bits (44_address_random.md R141). -/
theorem add_regWord_toNat (w : Word) (s : State) (x : Reg) :
    (w + s.regWord x).toNat = (w.toNat + (s.reg x).toNat) % 0x10000 := by
  rw [BitVec.toNat_add, s.regWord_toNat]

/-- CXNN puts the byte numbered by the count of draws under its mask, and counts the draw (10_state.md R42). -/
theorem exec_rnd_answers (x : Reg) (nn : Byte) (s : State) : ∃ t, exec (.rnd x nn) s = .next t ∧
    t.reg x = Config.randByte s.draws &&& nn ∧ t.draws = s.draws + 1 :=
  ⟨_, rfl, (State.reg_setReg s.draw.2 x _ x).trans (if_pos rfl), rfl⟩

/-- Settles O22: nnn with zeros above it, and the wrapped sum read as a number. -/
theorem addressRegisterResult : Obligations.AddressRegisterResult := by
  unfold Obligations.AddressRegisterResult
  constructor
  · exact fun nnn s => ⟨decodeWord_wordNNN_of_encode rfl rfl,
      _, rfl, rfl, toNat_add_two s.pc, targetOf_toNat nnn⟩
  · exact fun x s => ⟨decodeWord_wordXNN_of_encode (nn := 0x1E#8) rfl rfl,
      _, rfl, rfl, toNat_add_two s.pc, add_regWord_toNat s.i s x⟩

/-- Settles O23: the byte is the one this step draws; the mask is read bit by bit. -/
theorem rndResult : Obligations.RndResult := by
  unfold Obligations.RndResult
  exact fun x nn s => ⟨decodeWord_wordXNN_of_encode rfl rfl, s.draw.1, _, rfl, rfl, toNat_add_two s.pc,
    fun r k => State.apply_reg_setReg (·.getLsbD k) BitVec.getLsbD_and r⟩

/-- Settles O24: the mask 0xFF keeps the whole byte, and the next CXNN draws from the count the first one left. -/
theorem rndTakesNewDraw : Obligations.RndTakesNewDraw := by
  unfold Obligations.RndTakesNewDraw
  intro x s
  obtain ⟨t, ht, hbyte, hcount⟩ := exec_rnd_answers x 0xFF#8 s
  refine ⟨t, ht, hbyte.trans BitVec.and_allOnes, hcount, fun y nn => ?_⟩
  obtain ⟨u, hu, hnext, -⟩ := exec_rnd_answers y nn t
  exact ⟨u, hu, hcount ▸ hnext⟩

end Sys2Proof.Machine

/-! # Sprite draw

The state a draw inside memory answers, read pixel by pixel and through VF; a second draw from that state reads the
same sprite unless a coordinate stands in VF. -/

namespace Sys2Proof.Machine

variable {s : State} {x y : Reg} {n : Nibble} {px py : Nat}

theorem flagOf_eq_one_iff (c : Bool) : flagOf c = 1#8 ↔ c = true := by cases c <;> decide

theorem flagOf_eq_zero_or_one (c : Bool) : flagOf c = 0#8 ∨ flagOf c = 1#8 := by
  cases c with
  | false => exact .inl rfl
  | true => exact .inr rfl

/-- The rows drawn from the n bytes at I are the sprite, inside the display (45_display.md R151, R152). -/
theorem rowsAt_getMany (s : State) (x y : Reg) (n : Nibble) (hx : px < 64) :
    rowsAt (s.startColumn x) (s.startRow y) (s.mem.getMany s.addressI n.toNat) px py = s.spriteAt x y n px py := by
  have hcol : s.startColumn x = (s.reg x).toNat % 64 := rfl
  have hrow : s.startRow y = (s.reg y).toNat % 32 := rfl
  rw [rowsAt, spriteRow_getMsbD, Memory.getMany_length, State.spriteAt, hcol, hrow, Bool.eq_iff_iff]
  simp only [Bool.and_eq_true, decide_eq_true_eq]
  by_cases hin : (s.reg y).toNat % 32 ≤ py ∧ py < (s.reg y).toNat % 32 + n.toNat
  · rw [Memory.getMany_getD _ _ _ _ (by omega), State.addressI, ← s.readByte_eq]
    tauto
  · tauto

theorem State.drawn_pixel (s : State) (x y : Reg) (n : Nibble) (hx : px < 64) (hy : py < 32) :
    (s.drawn x y n).1.pixel px py = (s.pixel px py ^^ s.spriteAt x y n px py) := by
  rw [State.drawn, drawRows_pixel _ _ _ _ _ _ _ hy, rowsAt_getMany s x y n hx]
  rfl

theorem State.drawn_hit (s : State) (x y : Reg) (n : Nibble) : (s.drawn x y n).2 = true ↔
    ∃ px py, px < 64 ∧ py < 32 ∧ s.pixel px py = true ∧ s.spriteAt x y n px py = true := by
  rw [State.drawn, drawRows_hit]
  simp only [Bool.false_eq_true, false_or]
  refine exists_congr fun px => exists_congr fun py => and_congr_right fun hx => ?_
  rw [rowsAt_getMany s x y n hx]
  rfl

/-- The state after DXYN whose n bytes all exist. -/
def State.afterDraw (s : State) (x y : Reg) (n : Nibble) : State :=
  ((s.setDisp (s.drawn x y n).1).setReg Reg.vf (flagOf (s.drawn x y n).2)).advance

theorem exec_drw_of_inRange (h : n.toNat = 0 ∨ s.i.toNat + n.toNat ≤ 4096) :
    exec (.drw x y n) s = .next (s.afterDraw x y n) := State.withRange_ok _ h

theorem exec_drw_of_outOfRange (hn : 0 < n.toNat) (h : 4096 < s.i.toNat + n.toNat) :
    exec (.drw x y n) s = .next (s.raise (.memOutOfRange (max s.i.toNat 4096))) :=
  State.withRange_bad _ (outOfRange_past hn h)

theorem State.afterDraw_pixel (s : State) (x y : Reg) (n : Nibble) (hx : px < 64) (hy : py < 32) :
    (s.afterDraw x y n).pixel px py = (s.pixel px py ^^ s.spriteAt x y n px py) := s.drawn_pixel x y n hx hy

theorem State.afterDraw_reg_of_ne (s : State) (x y : Reg) (n : Nibble) {r : Reg} (h : r ≠ 15) :
    (s.afterDraw x y n).reg r = s.reg r := (State.reg_setReg _ _ _ _).trans (if_neg h)

theorem State.afterDraw_reg_vf (s : State) (x y : Reg) (n : Nibble) :
    (s.afterDraw x y n).reg 15 = flagOf (s.drawn x y n).2 := (State.reg_setReg _ _ _ _).trans (if_pos rfl)

theorem State.afterDraw_vf_eq_zero_or_one (s : State) (x y : Reg) (n : Nibble) :
    (s.afterDraw x y n).reg 15 = 0#8 ∨ (s.afterDraw x y n).reg 15 = 1#8 := by
  rw [s.afterDraw_reg_vf]
  exact flagOf_eq_zero_or_one _

theorem State.afterDraw_vf_eq_one_iff (s : State) (x y : Reg) (n : Nibble) : (s.afterDraw x y n).reg 15 = 1#8 ↔
    ∃ px py, px < 64 ∧ py < 32 ∧ s.pixel px py = true ∧ s.spriteAt x y n px py = true := by
  rw [s.afterDraw_reg_vf, flagOf_eq_one_iff, s.drawn_hit]

/-- A draw changes neither the sprite's bytes nor I, and of the registers only VF. -/
theorem State.afterDraw_spriteAt (s : State) {x y : Reg} (n : Nibble) (hx : x ≠ 15) (hy : y ≠ 15) :
    (s.afterDraw x y n).spriteAt x y n px py = s.spriteAt x y n px py := by
  rw [State.spriteAt, s.afterDraw_reg_of_ne x y n hx, s.afterDraw_reg_of_ne x y n hy]
  rfl

/-- Settles O25: the two outcomes of the range check, and the drawn display read pixel by pixel. -/
theorem drwResult : Obligations.DrwResult := by
  unfold Obligations.DrwResult
  exact fun x y n s => ⟨decodeWord_wordXYN_of_encode rfl rfl,
    fun h => ⟨_, exec_drw_of_inRange h, rfl, toNat_add_two s.pc, fun _ _ => s.afterDraw_pixel x y n,
      fun _ => s.afterDraw_reg_of_ne x y n, s.afterDraw_vf_eq_zero_or_one x y n, s.afterDraw_vf_eq_one_iff x y n⟩,
    exec_drw_of_outOfRange⟩

/-- A set pixel is hit exactly if the draw unsets it (45_display.md R153). -/
theorem State.afterDraw_vf_eq_one_iff_unsets (s : State) (x y : Reg) (n : Nibble) :
    (s.afterDraw x y n).reg 15 = 1#8 ↔
      ∃ px py, px < 64 ∧ py < 32 ∧ s.pixel px py = true ∧ (s.afterDraw x y n).pixel px py = false := by
  rw [s.afterDraw_vf_eq_one_iff]
  refine exists_congr fun px => exists_congr fun py => and_congr_right fun hx => and_congr_right fun hy =>
    and_congr_right fun hset => ?_
  rw [s.afterDraw_pixel x y n hx hy, hset, Bool.true_xor, Bool.not_eq_false']

theorem State.afterDraw_afterDraw_pixel (s : State) {x y : Reg} (n : Nibble) (hx : x ≠ 15) (hy : y ≠ 15)
    (hpx : px < 64) (hpy : py < 32) : ((s.afterDraw x y n).afterDraw x y n).pixel px py = s.pixel px py := by
  rw [State.afterDraw_pixel _ x y n hpx hpy, s.afterDraw_spriteAt n hx hy, s.afterDraw_pixel x y n hpx hpy,
    Bool.xor_assoc, Bool.xor_self, Bool.xor_false]

/-- From a clear display the first draw leaves exactly the sprite, so the second hits every pixel of it. -/
theorem State.afterDraw_afterDraw_vf_eq_one_iff (s : State) {x y : Reg} (n : Nibble) (hx : x ≠ 15) (hy : y ≠ 15)
    (hclear : ∀ px py, px < 64 → py < 32 → s.pixel px py = false) :
    ((s.afterDraw x y n).afterDraw x y n).reg 15 = 1#8 ↔
      ∃ px py, px < 64 ∧ py < 32 ∧ s.spriteAt x y n px py = true := by
  rw [State.afterDraw_vf_eq_one_iff]
  refine exists_congr fun px => exists_congr fun py => and_congr_right fun hpx => and_congr_right fun hpy => ?_
  rw [s.afterDraw_pixel x y n hpx hpy, hclear px py hpx hpy, Bool.false_xor, s.afterDraw_spriteAt n hx hy, and_self]

/-- Settles O26: the second draw finds I and its bytes as the first did, and XORs the same sprite again. -/
theorem drawTwiceCollides : Obligations.DrawTwiceCollides := by
  unfold Obligations.DrawTwiceCollides
  exact fun x y n s h => ⟨_, exec_drw_of_inRange h, s.afterDraw_vf_eq_zero_or_one x y n,
    s.afterDraw_vf_eq_one_iff_unsets x y n,
    fun hx hy => ⟨_, exec_drw_of_inRange (s := s.afterDraw x y n) h, fun _ _ => s.afterDraw_afterDraw_pixel n hx hy,
      s.afterDraw_afterDraw_vf_eq_one_iff n hx hy⟩⟩

/-- Every instruction but CLS and DRW keeps the display (45_display.md R155). -/
theorem exec_keeps_disp (i : Instr) (s : State) :
    Answers (fun t => t.disp = s.disp ∨ i = .cls ∨ ∃ x y n, i = .drw x y n) (exec i s) := by
  cases i with
  | cls => exact answers_next (.inr (.inl rfl))
  | drw x y n => exact answers_withRange (fun _ _ => .inl rfl) fun _ => .inr (.inr ⟨x, y, n, rfl⟩)
  | load x => exact answers_withRange (fun _ _ => .inl rfl) fun _ => .inl (s.setRegsFrom_disp 0 _)
  | ldB _ | dump _ => exact answers_withRange (fun _ _ => .inl rfl) fun _ => .inl rfl
  | ldVxK _ => exact answers_execLdVxK (fun _ => .inl rfl) (fun _ _ => .inl rfl) fun _ _ => .inl rfl
  | ret => exact answers_execRet (fun _ => .inl rfl) fun _ _ _ => .inl rfl
  | sys _ | jp _ | call _ | seImm _ _ | sneImm _ _ | seReg _ _ | ldImm _ _ | addImm _ _ | ldReg _ _ | orReg _ _
  | andReg _ _ | xorReg _ _ | addReg _ _ | subReg _ _ | shr _ _ | subnReg _ _ | shl _ _ | sneReg _ _ | ldI _ | jpV0 _
  | rnd _ _ | skp _ | sknp _ | ldVxDt _ | ldDtVx _ | ldStVx _ | addI _ | ldF _ => exact answers_next (.inl rfl)

/-- DRW halts, or it changes only the display, VF and pc. -/
theorem exec_drw_frame (x y : Reg) (n : Nibble) (s : State) :
    Answers (fun t => t.halted = true ∨ ∃ f, t = { s with disp := t.disp, v := s.v.set 15 f, pc := t.pc })
      (exec (.drw x y n) s) :=
  answers_withRange (fun _ _ => .inl rfl) fun _ => .inr ⟨_, rfl⟩

/-- Settles O27: the display by cases on the instruction in `exec_keeps_disp`, and the frame of DRW. -/
theorem displayChangesOnlyByDrawAndClear : Obligations.DisplayChangesOnlyByDrawAndClear := by
  unfold Obligations.DisplayChangesOnlyByDrawAndClear
  refine ⟨fun i s t he hne => ((exec_keeps_disp i s).of_eq_next he).resolve_left hne,
    fun x y n s t he _ hrun => ((exec_drw_frame x y n s).of_eq_next he).resolve_left ?_⟩
  rw [hrun]
  exact Bool.false_ne_true

end Sys2Proof.Machine

/-! # Keys and timers

The key a register names, the three cases of FX0A and the wait they make over many steps, and what an instruction and a
step can make of the two timers. -/

namespace Sys2Proof.Machine

variable {s t u : State} {i : Instr} {x : Reg}

/-- "`down <- (k <= 15) and Key[k]`" (46_keys_timers.md R160): past the keypad no key is down. -/
theorem State.keyDown_iff (s : State) (x : Reg) : s.keyDown x = true ↔ s.keys[(s.reg x).toNat]? = some true := by
  rw [State.keyDown]
  by_cases h : (s.reg x).toNat < 16
  · rw [dif_pos h, Vector.getElem?_eq_getElem h, Option.some_inj]
  · rw [dif_neg h, Vector.getElem?_eq_none (Nat.le_of_not_lt h)]
    simp

theorem State.skipIf_keyDown_pc_toNat (s : State) (x : Reg) : (s.skipIf (s.keyDown x)).pc.toNat =
    (s.pc.toNat + if s.keys[(s.reg x).toNat]? = some true then 4 else 2) % 0x10000 := by
  simp only [State.skipIf_pc_toNat, State.keyDown_iff]

theorem State.skipIf_not_keyDown_pc_toNat (s : State) (x : Reg) : (s.skipIf (!s.keyDown x)).pc.toNat =
    (s.pc.toNat + if s.keys[(s.reg x).toNat]? = some true then 2 else 4) % 0x10000 := by
  simp only [State.skipIf_pc_toNat, Bool.not_eq_true', Bool.eq_false_iff, ne_eq, State.keyDown_iff, ite_not]

/-- Settles O28: both words by the round trip, and the pc that a skip on the key leaves. -/
theorem keySkipResult : Obligations.KeySkipResult := by
  unfold Obligations.KeySkipResult
  exact fun x s => ⟨decodeWord_wordXNN_of_encode (nn := 0x9E#8) rfl rfl,
    decodeWord_wordXNN_of_encode (nn := 0xA1#8) rfl rfl,
    ⟨_, rfl, rfl, s.skipIf_keyDown_pc_toNat x⟩, _, rfl, rfl, s.skipIf_not_keyDown_pc_toNat x⟩

/-- The step that runs `i` is `exec i` after the sound timer's count (40_cycle.md R91). -/
theorem step_of_runsNext (h : s.RunsNext i) : step s = exec i { s with st := s.stAfter } :=
  stepRunsDecodedInstruction s i h

theorem State.RunsNext.halted_eq (h : s.RunsNext i) : s.halted = false := h.1

theorem State.RunsNext.dt_eq (h : s.RunsNext i) : s.dt = 0#8 := h.2.1

theorem State.RunsNext.pc_lt (h : s.RunsNext i) : s.pc.toNat + 1 < 4096 := h.2.2.1

/-- Settles O29: V[x] is the only register written, and the step finds DT = 0. -/
theorem readDelayTimerResult : Obligations.ReadDelayTimerResult := by
  unfold Obligations.ReadDelayTimerResult
  refine fun x s => ⟨decodeWord_wordXNN_of_encode (nn := 0x07#8) rfl rfl,
    ⟨_, rfl, rfl, toNat_add_two s.pc, s.reg_setReg x s.dt⟩, fun h => ⟨_, step_of_runsNext h, ?_⟩⟩
  calc (s.setReg x s.dt).reg x
    _ = s.dt := by rw [State.reg_setReg, if_pos rfl]
    _ = 0#8 := h.dt_eq

/-- With DT = d, the next d steps execute nothing and use DT up (70_reset_and_hazards.md R206). -/
theorem run_uses_up_dt (hrun : s.halted = false) :
    Answers (fun u => u = { s with dt := 0#8, st := u.st }) (core.run s.dt.toNat s) := by
  obtain ⟨u, hu, hframe, hdt, -⟩ := run_counts_timers s.dt.toNat hrun le_rfl
  have hzero : u.dt = 0#8 := BitVec.eq_of_toNat_eq (hdt.trans (Nat.sub_self _))
  exact ⟨u, hu, hzero ▸ hframe⟩

/-- Settles O30: the two writes, and the run that uses up the DT which FX15 wrote. -/
theorem writeTimersResult : Obligations.WriteTimersResult := by
  unfold Obligations.WriteTimersResult
  refine fun x s => ⟨decodeWord_wordXNN_of_encode (nn := 0x15#8) rfl rfl,
    decodeWord_wordXNN_of_encode (nn := 0x18#8) rfl rfl, ⟨_, rfl, rfl, toNat_add_two s.pc⟩,
    ⟨_, rfl, rfl, toNat_add_two s.pc⟩, fun h => ?_, fun h => ⟨_, step_of_runsNext h, rfl⟩⟩
  obtain ⟨u, hu, hframe⟩ :=
    run_uses_up_dt (s := (State.setDt { s with st := s.stAfter } (s.reg x)).advance) h.halted_eq
  exact ⟨_, u, step_of_runsNext h, rfl, hu, hframe⟩

/-! FX0A: an equation for each of its three cases. -/

/-- The state after FX0A has taken the latched key (46_keys_timers.md R163). -/
def State.afterKey (s : State) (x : Reg) : State :=
  ((s.setReg x (s.latch.setWidth 8)).setWait false false).advance

theorem State.afterKey_reg_toNat (s : State) (x r : Reg) :
    ((s.afterKey x).reg r).toNat = if r = x then s.latch.toNat else (s.reg r).toNat :=
  State.apply_reg_setReg BitVec.toNat (BitVec.toNat_setWidth_of_le (by decide)) r

theorem exec_ldVxK_of_not_armed (x : Reg) (ha : s.armed = false) :
    exec (.ldVxK x) s = .next (s.setWait true false) := by
  simp [exec, execLdVxK, ha]

theorem exec_ldVxK_of_keyEvent (x : Reg) (ha : s.armed = true) (he : s.keyEvent = true) :
    exec (.ldVxK x) s = .next (s.afterKey x) := by
  simp [exec, execLdVxK, State.afterKey, ha, he]

theorem exec_ldVxK_of_no_keyEvent (x : Reg) (ha : s.armed = true) (he : s.keyEvent = false) :
    exec (.ldVxK x) s = .next s := by
  simp [exec, execLdVxK, ha, he]

/-- Settles O31: an equation of FX0A for each case, and the latch with zeros above it. -/
theorem keyWaitResult : Obligations.KeyWaitResult := by
  unfold Obligations.KeyWaitResult
  exact fun x s => ⟨decodeWord_wordXNN_of_encode (nn := 0x0A#8) rfl rfl, exec_ldVxK_of_not_armed x,
    fun ha he => ⟨_, exec_ldVxK_of_keyEvent x ha he, rfl, toNat_add_two s.pc, s.afterKey_reg_toNat x⟩,
    exec_ldVxK_of_no_keyEvent x⟩

/-! The wait over many steps: nothing but the sound timer moves, so every step finds the wait again. -/

/-- `t` is `s` with the sound timer counted `n` times, as far as 0, and nothing else changed. -/
def State.SoundCounted (n : Nat) (s t : State) : Prop := t = { s with st := t.st } ∧ t.st.toNat = s.st.toNat - n

theorem State.soundCounted_zero (s : State) : s.SoundCounted 0 s := ⟨rfl, rfl⟩

theorem State.SoundCounted.trans {m n : Nat} (hst : s.SoundCounted m t) (htu : t.SoundCounted n u) :
    s.SoundCounted (m + n) u := by
  obtain ⟨ht, htst⟩ := hst
  obtain ⟨hu, hust⟩ := htu
  refine ⟨?_, by omega⟩
  rw [hu, ht]

/-- The core is armed and stands at FX0A, with no key pressed since (46_keys_timers.md R163). -/
structure State.WaitsForKey (s : State) (x : Reg) : Prop where
  runs : s.RunsNext (.ldVxK x)
  armed : s.armed = true
  noEvent : s.keyEvent = false

theorem State.WaitsForKey.of_soundCounted {n : Nat} (h : s.WaitsForKey x) (ht : s.SoundCounted n t) :
    t.WaitsForKey x := by
  rw [ht.1]
  exact ⟨h.runs, h.armed, h.noEvent⟩

theorem State.WaitsForKey.step_counts_sound (h : s.WaitsForKey x) : Answers (s.SoundCounted 1) (step s) :=
  ⟨_, (step_of_runsNext h.runs).trans (exec_ldVxK_of_no_keyEvent x h.armed h.noEvent), rfl, s.stAfter_toNat⟩

theorem State.WaitsForKey.steps_count_sound (h : s.WaitsForKey x) (n : Nat) :
    Answers (s.SoundCounted n) (runTransactions s (List.replicate n .step)) := by
  induction n generalizing s with
  | zero => exact answers_next s.soundCounted_zero
  | succ n ih =>
    obtain ⟨t, ht, hcount⟩ := h.step_counts_sound
    obtain ⟨u, hu, hrest⟩ := ih (h.of_soundCounted hcount)
    exact ⟨u, (runTransactions_cons .step _ ht).trans hu, Nat.add_comm n 1 ▸ hcount.trans hrest⟩

/-- A press while armed is an event, and the next step takes its key. -/
theorem State.WaitsForKey.press_step (h : s.WaitsForKey x) (k : Nibble) :
    runTransactions s [.press k, .step] = .next (State.afterKey { s.press k with st := s.stAfter } x) := by
  have hnext : (s.press k).RunsNext (.ldVxK x) := h.runs
  have hevent : (s.press k).keyEvent = true := by rw [State.press_keyEvent, h.armed, Bool.or_true]
  have hstep := (step_of_runsNext hnext).trans (exec_ldVxK_of_keyEvent x h.armed hevent)
  rw [runTransactions_cons (.press k) _ rfl, runTransactions_cons .step _ hstep, runTransactions]
  rfl

/-- Settles O32, by induction on the number of steps in `State.WaitsForKey.steps_count_sound`; the core still waits, so the
press and the step after it end the wait. -/
theorem keyWaitLastsUntilPress : Obligations.KeyWaitLastsUntilPress := by
  unfold Obligations.KeyWaitLastsUntilPress
  intro x s k n hnext harmed hevent
  have hwait : s.WaitsForKey x := ⟨hnext, harmed, hevent⟩
  obtain ⟨t, ht, hcount⟩ := hwait.steps_count_sound n
  have hpc : t.pc = s.pc := by rw [hcount.1]
  have hreg (r : Reg) : t.reg r = s.reg r := by rw [hcount.1]; rfl
  refine ⟨t, ht, hcount.1, hcount.2, _, (hwait.of_soundCounted hcount).press_step k, ?_, rfl, rfl, fun r => ?_⟩
  · have hin : s.pc.toNat + 1 < 4096 := hnext.pc_lt
    calc (t.pc + 2#16).toNat
      _ = (s.pc.toNat + 2) % 0x10000 := by rw [hpc, toNat_add_two]
      _ = s.pc.toNat + 2 := Nat.mod_eq_of_lt (by omega)
  · rw [State.afterKey_reg_toNat, ← hreg r]
    rfl

/-! What an instruction and a step make of the timers. -/

/-- The timers are as before, but for FX15 and FX18, which write DT and ST (46_keys_timers.md R164, R165). -/
theorem exec_timers (i : Instr) (s : State) :
    Answers (fun t => (t.dt = s.dt ∨ ∃ x, i = .ldDtVx x ∧ t.dt = s.reg x) ∧
      (t.st = s.st ∨ ∃ x, i = .ldStVx x ∧ t.st = s.reg x)) (exec i s) := by
  cases i with
  | ldDtVx x => exact answers_next ⟨.inr ⟨x, rfl, rfl⟩, .inl rfl⟩
  | ldStVx x => exact answers_next ⟨.inl rfl, .inr ⟨x, rfl, rfl⟩⟩
  | load x =>
    exact answers_withRange (fun _ _ => ⟨.inl rfl, .inl rfl⟩) fun _ =>
      ⟨.inl (s.setRegsFrom_dt 0 _), .inl (s.setRegsFrom_st 0 _)⟩
  | drw _ _ _ | ldB _ | dump _ =>
    exact answers_withRange (fun _ _ => ⟨.inl rfl, .inl rfl⟩) fun _ => ⟨.inl rfl, .inl rfl⟩
  | ldVxK _ =>
    exact answers_execLdVxK (fun _ => ⟨.inl rfl, .inl rfl⟩) (fun _ _ => ⟨.inl rfl, .inl rfl⟩) fun _ _ =>
      ⟨.inl rfl, .inl rfl⟩
  | ret => exact answers_execRet (fun _ => ⟨.inl rfl, .inl rfl⟩) fun _ _ _ => ⟨.inl rfl, .inl rfl⟩
  | cls | sys _ | jp _ | call _ | seImm _ _ | sneImm _ _ | seReg _ _ | ldImm _ _ | addImm _ _ | ldReg _ _ | orReg _ _
  | andReg _ _ | xorReg _ _ | addReg _ _ | subReg _ _ | shr _ _ | subnReg _ _ | shl _ _ | sneReg _ _ | ldI _ | jpV0 _
  | rnd _ _ | skp _ | sknp _ | ldVxDt _ | addI _ | ldF _ => exact answers_next ⟨.inl rfl, .inl rfl⟩

/-- A timer at `b` was at `a` and has been counted once, as far as 0, or not at all. -/
def CountedAtMostOnce (a b : Byte) : Prop := b.toNat ≤ a.toNat ∧ a.toNat ≤ b.toNat + 1

theorem countedAtMostOnce_self (a : Byte) : CountedAtMostOnce a a := ⟨le_rfl, Nat.le_succ _⟩

theorem countedAtMostOnce_of_toNat_eq {a b : Byte} (h : b.toNat = a.toNat - 1) : CountedAtMostOnce a b :=
  ⟨by omega, by omega⟩

/-- A step counts each timer at most once, unless it runs the instruction that writes the timer. -/
theorem step_timers (s : State) :
    Answers (fun t => (CountedAtMostOnce s.dt t.dt ∨ ∃ x, s.RunsNext (.ldDtVx x) ∧ t.dt = s.reg x) ∧
      (CountedAtMostOnce s.st t.st ∨ ∃ x, s.RunsNext (.ldStVx x) ∧ t.st = s.reg x)) (step s) := by
  have hst : CountedAtMostOnce s.st s.stAfter := countedAtMostOnce_of_toNat_eq s.stAfter_toNat
  have hdt : CountedAtMostOnce s.dt s.dt := countedAtMostOnce_self s.dt
  obtain ⟨-, he⟩ | ⟨-, -, he⟩ | ⟨-, -, -, he⟩ | ⟨i, hi, he⟩ | ⟨-, -, -, -, he⟩ := step_cases s
  · exact ⟨s, he, .inl hdt, .inl (countedAtMostOnce_self s.st)⟩
  · exact ⟨_, he, .inl (countedAtMostOnce_of_toNat_eq s.tickDelay_dt_toNat), .inl hst⟩
  · exact ⟨_, he, .inl hdt, .inl hst⟩
  · obtain ⟨t, ht, htdt, htst⟩ := exec_timers i { s with st := s.stAfter }
    refine ⟨t, he.trans ht, htdt.imp (fun hkeep => ?_) ?_, htst.imp (fun hkeep => ?_) ?_⟩
    · rwa [hkeep]
    · rintro ⟨x, rfl, hx⟩
      exact ⟨x, hi, hx⟩
    · rwa [hkeep]
    · rintro ⟨x, rfl, hx⟩
      exact ⟨x, hi, hx⟩
  · exact ⟨_, he, .inl hdt, .inl hst⟩

/-- While DT lasts, pc stays (40_cycle.md R91). -/
theorem step_keeps_pc_of_dt (hdt : s.dt ≠ 0#8) : Answers (fun t => t.pc = s.pc) (step s) := by
  cases hrun : s.halted with
  | true => exact ⟨s, step_of_halted hrun, rfl⟩
  | false =>
    obtain ⟨t, ht, hframe, -, -⟩ := step_counts_timers hrun hdt
    exact ⟨t, ht, by rw [hframe]⟩

/-- Settles O35: a timer that is not written is counted at most once, and FX15 runs only with DT = 0. -/
theorem timerLaws : Obligations.TimerLaws := by
  unfold Obligations.TimerLaws
  intro s t he
  obtain ⟨hdt, hst⟩ := (step_timers s).of_eq_next he
  refine ⟨?_, hst.imp_left And.right, fun hne => (step_keeps_pc_of_dt hne).of_eq_next he,
    fun hrise => hdt.resolve_left fun hcount => hcount.1.not_gt hrise,
    fun hrise => hst.resolve_left fun hcount => hcount.1.not_gt hrise⟩
  obtain ⟨-, hfall⟩ | ⟨x, hx, -⟩ := hdt
  · exact hfall
  · simp [hx.dt_eq]

end Sys2Proof.Machine

/-! # Memory operations

The numbers that FX29, FX33 and the two block transfers write, and the two outcomes of an access at I: all of its
addresses exist, or the lowest missing one is I or the first past memory. -/

namespace Sys2Proof.Machine

variable {s : State} {x : Reg}

theorem glyphAddress_toNat (b : Byte) : (glyphAddress b).toNat = b.toNat % 16 * 5 := by
  have hnibble : (b &&& 0x0F#8).toNat = b.toNat % 16 :=
    (BitVec.toNat_and b 0x0F#8).trans (Nat.and_two_pow_sub_one_eq_mod b.toNat 4)
  rw [glyphAddress, BitVec.toNat_mul, BitVec.toNat_setWidth, hnibble, BitVec.toNat_ofNat]
  omega

/-- I after a block transfer, as a number (47_memory_ops.md R172, R173). -/
theorem State.blockEndI_toNat (s : State) (x : Reg) : (s.blockEndI x).toNat =
    if s.cfg.loadstoreIncI then (s.i.toNat + x.val + 1) % 0x10000 else s.i.toNat := by
  unfold State.blockEndI
  split
  · rw [BitVec.toNat_add, BitVec.toNat_ofNat, Nat.add_mod_mod, Nat.add_assoc]
  · rfl

theorem sameMemoryOutside_storeBytes {a n : Nat} {bs : List Byte} (hlen : bs.length = n) :
    SameMemoryOutside a n s (s.storeBytes a bs) :=
  fun _ hb => State.readByte_storeBytes_of_outside (by omega)

/-- An access at I that reaches past memory faults before anything else (20_memory.md R53). -/
theorem State.withRange_past {n : Nat} (go : State) (hn : 0 < n) (h : 4096 < s.i.toNat + n) :
    s.withRange s.addressI n go = .next (s.raise (.memOutOfRange (max s.i.toNat 4096))) :=
  State.withRange_bad go (outOfRange_past hn h)

/-- The three bytes of a decimal store, as numbers (47_memory_ops.md R171). -/
theorem State.readByte_storeBytes_bcdDigits (s : State) (a : Nat) (b : Byte) :
    ((s.storeBytes a (bcdDigits b)).readByte a).toNat = b.toNat / 100 ∧
    ((s.storeBytes a (bcdDigits b)).readByte (a + 1)).toNat = b.toNat / 10 % 10 ∧
    ((s.storeBytes a (bcdDigits b)).readByte (a + 2)).toNat = b.toNat % 10 := by
  have hdigit (k : Nat) (hk : k < 3) :
      (s.storeBytes a (bcdDigits b)).readByte (a + k) = (bcdDigits b).getD k 0#8 := by
    rw [State.readByte_storeBytes, bcdDigits_length, if_pos (by omega), Nat.add_sub_cancel_left]
  exact ⟨congrArg BitVec.toNat (hdigit 0 (by decide)), congrArg BitVec.toNat (hdigit 1 (by decide)),
    congrArg BitVec.toNat (hdigit 2 (by decide))⟩

/-- The state after FX65 whose x + 1 bytes all exist. -/
def State.afterLoad (s : State) (x : Reg) : State :=
  { s with v := (s.setRegsFrom 0 (s.mem.getMany s.addressI (x.val + 1))).v, i := s.blockEndI x, pc := s.pc + 2#16 }

theorem exec_load_of_inRange (h : s.i.toNat + x.val + 1 ≤ 4096) : exec (.load x) s = .next (s.afterLoad x) := by
  have hcheck : exec (.load x) s = .next
      ((s.setRegsFrom 0 (s.mem.getMany s.addressI (x.val + 1))).setI (s.blockEndI x)).advance :=
    State.withRange_ok _ (.inr h)
  rw [hcheck, State.setRegsFrom_eq]
  rfl

theorem State.afterLoad_reg (s : State) (x r : Reg) :
    (s.afterLoad x).reg r = if r.val ≤ x.val then s.readByte (s.i.toNat + r.val) else s.reg r := by
  have hload : (s.afterLoad x).reg r = (s.setRegsFrom 0 (s.mem.getMany s.addressI (x.val + 1))).reg r := rfl
  rw [hload, State.reg_setRegsFrom, Memory.getMany_length]
  by_cases hr : r.val ≤ x.val
  · rw [if_pos hr, if_pos (by omega), Memory.getMany_getD _ _ _ _ (by omega)]
    rfl
  · rw [if_neg hr, if_neg (by omega)]

/-- Settles O37: the mask 0x0F leaves the remainder by 16, and 5 times it does not wrap. -/
theorem glyphAddressResult : Obligations.GlyphAddressResult := by
  unfold Obligations.GlyphAddressResult
  exact fun x s => ⟨decodeWord_wordXNN_of_encode (nn := 0x29#8) rfl rfl,
    _, rfl, rfl, toNat_add_two s.pc, glyphAddress_toNat (s.reg x)⟩

/-- Settles O38: the two outcomes of the range check, and the three stored bytes read back as numbers. -/
theorem bcdResult : Obligations.BcdResult := by
  unfold Obligations.BcdResult
  intro x s
  obtain ⟨hundreds, tens, units⟩ := s.readByte_storeBytes_bcdDigits s.addressI (s.reg x)
  exact ⟨decodeWord_wordXNN_of_encode (nn := 0x33#8) rfl rfl,
    fun h => ⟨_, State.withRange_ok _ (.inr h), rfl, toNat_add_two s.pc, hundreds, tens, units,
      sameMemoryOutside_storeBytes (bcdDigits_length (s.reg x))⟩,
    State.withRange_past _ (by decide)⟩

/-- Settles O39: the two outcomes of the range check, and the stored block read back register by register. -/
theorem registerDumpResult : Obligations.RegisterDumpResult := by
  unfold Obligations.RegisterDumpResult
  exact fun x s => ⟨decodeWord_wordXNN_of_encode (nn := 0x55#8) rfl rfl,
    fun h => ⟨_, State.withRange_ok _ (.inr h), rfl, toNat_add_two s.pc,
      fun _ hk => State.readByte_storeBytes_regsUpTo s.addressI hk,
      sameMemoryOutside_storeBytes (s.regsUpTo_length x), s.blockEndI_toNat x⟩,
    State.withRange_past _ x.val.succ_pos⟩

/-- Settles O40: the two outcomes of the range check, and the loaded state read register by register. -/
theorem registerLoadResult : Obligations.RegisterLoadResult := by
  unfold Obligations.RegisterLoadResult
  exact fun x s => ⟨decodeWord_wordXNN_of_encode (nn := 0x65#8) rfl rfl,
    fun h => ⟨_, exec_load_of_inRange h, rfl, toNat_add_two s.pc, s.afterLoad_reg x, s.blockEndI_toNat x⟩,
    State.withRange_past _ x.val.succ_pos⟩

/-- Settles O41: the load reads V[r] from the address where the dump stored it; the policy moves only the I that each
of the two leaves behind. -/
theorem dumpThenLoadRestores : Obligations.DumpThenLoadRestores := by
  unfold Obligations.DumpThenLoadRestores
  intro x s hin
  obtain ⟨t, ht, hstored⟩ := exec_dump_stores (s := s) (x := x) hin
  refine ⟨t, ht, fun u hmem hi => ⟨u.afterLoad x, exec_load_of_inRange (hi ▸ hin), fun r hr => ?_⟩⟩
  rw [u.afterLoad_reg, if_pos hr, hi, u.readByte_eq, hmem]
  exact hstored r hr

end Sys2Proof.Machine

/-! # Faults

The fault an instruction takes in a state, as one function of the two, and the one lemma by cases on the instruction:
with a fault `exec` answers its `raise`, without one it leaves the halt alone. -/

namespace Sys2Proof.Machine

variable {s t : State} {i : Instr}

/-- The fault that R182 lists for an instruction in a state, if any: the empty stack for RET, the lowest missing
address for every access at I (60_exceptions.md R182, R186). -/
def State.faultOf (s : State) : Instr → Option Fault
  | .ret => if s.stack = [] then some (.stackUnderflow s.pc) else none
  | i => (outOfRange s.addressI i.accessWidth).map .memOutOfRange

/-- `t` is an answer to an instruction that takes the fault `f?` in `s`: with a fault, exactly R181's effect; without
one, the halt is as before. -/
def State.AnswersFault (s : State) (f? : Option Fault) (t : State) : Prop :=
  match f? with
  | some f => t = s.raise f
  | none => t.halted = s.halted

theorem State.faultOf_ret_of_empty (h : s.stack = []) : s.faultOf .ret = some (.stackUnderflow s.pc) := if_pos h

theorem State.faultOf_ret_of_ne (h : s.stack ≠ []) : s.faultOf .ret = none := if_neg h

theorem State.faultOf_of_ne_ret (s : State) (h : i ≠ .ret) :
    s.faultOf i = (outOfRange s.addressI i.accessWidth).map .memOutOfRange := by
  unfold State.faultOf
  split
  · exact absurd rfl h
  · rfl

theorem outOfRange_ne_none_iff {a n : Nat} : outOfRange a n ≠ none ↔ 0 < n ∧ 4096 < a + n := by
  have hsize : Config.memSize = 4096 := rfl
  rw [Ne, outOfRange_eq_none]
  omega

/-- The states in which an instruction faults (60_exceptions.md R182). -/
theorem State.faultOf_ne_none_iff (s : State) (i : Instr) : s.faultOf i ≠ none ↔
    (0 < i.accessWidth ∧ 4096 < s.i.toNat + i.accessWidth) ∨ (i = .ret ∧ s.stack = []) := by
  by_cases hret : i = .ret
  · subst hret
    have hwidth : Instr.ret.accessWidth = 0 := rfl
    by_cases hempty : s.stack = []
    · simp [State.faultOf_ret_of_empty hempty, hempty]
    · simp [State.faultOf_ret_of_ne hempty, hempty, hwidth]
  · rw [s.faultOf_of_ne_ret hret, Ne, Option.map_eq_none_iff, ← Ne, outOfRange_ne_none_iff, or_iff_left (hret ·.1)]
    rfl

/-- An access that reaches past memory: the recorded address is I or the first past memory. -/
theorem State.faultOf_of_past (hwidth : 0 < i.accessWidth) (hpast : 4096 < s.i.toNat + i.accessWidth) :
    s.faultOf i = some (.memOutOfRange (max s.i.toNat 4096)) := by
  have hret : i ≠ .ret := by
    rintro rfl
    exact hwidth.ne rfl
  rw [s.faultOf_of_ne_ret hret, State.addressI, outOfRange_past hwidth hpast, Option.map_some]

theorem State.withRange_answersFault {a n : Nat} {go : State} (hgo : go.halted = s.halted) :
    Answers (s.AnswersFault ((outOfRange a n).map .memOutOfRange)) (s.withRange a n go) := by
  unfold State.withRange
  cases outOfRange a n with
  | some bad => exact answers_next rfl
  | none => exact answers_next hgo

theorem State.execRet_answersFault (s : State) : Answers (s.AnswersFault (s.faultOf .ret)) (execRet s) := by
  refine answers_execRet (fun hempty => ?_) fun a rest hcons => ?_
  · rw [State.faultOf_ret_of_empty hempty]
    rfl
  · rw [State.faultOf_ret_of_ne (by simp [hcons])]
    rfl

/-- Every instruction takes the fault that `State.faultOf` gives for it, and no other (60_exceptions.md R181, R182). -/
theorem exec_answersFault (i : Instr) (s : State) : Answers (s.AnswersFault (s.faultOf i)) (exec i s) := by
  cases i with
  | ret => exact s.execRet_answersFault
  | drw _ _ _ | ldB _ | dump _ => exact State.withRange_answersFault rfl
  | load _ => exact State.withRange_answersFault (s.setRegsFrom_halted 0 _)
  | ldVxK _ => exact answers_execLdVxK (fun _ => rfl) (fun _ _ => rfl) fun _ _ => rfl
  | cls | sys _ | jp _ | call _ | seImm _ _ | sneImm _ _ | seReg _ _ | ldImm _ _ | addImm _ _ | ldReg _ _ | orReg _ _
  | andReg _ _ | xorReg _ _ | addReg _ _ | subReg _ _ | shr _ _ | subnReg _ _ | shl _ _ | sneReg _ _ | ldI _ | jpV0 _
  | rnd _ _ | skp _ | sknp _ | ldVxDt _ | ldDtVx _ | ldStVx _ | addI _ | ldF _ => exact answers_next rfl

/-- From a running core, the answer is halted exactly where there is a fault. -/
theorem State.AnswersFault.halted_iff {f? : Option Fault} (h : s.AnswersFault f? t) (hrun : s.halted = false) :
    t.halted = true ↔ f? ≠ none := by
  cases f? with
  | some f =>
    obtain rfl : t = s.raise f := h
    simp
  | none =>
    have hkeep : t.halted = s.halted := h
    simp [hkeep, hrun]

theorem State.AnswersFault.faultCause_eq {f : Fault} (h : s.AnswersFault (some f) t) : t.faultCause = some f :=
  congrArg State.faultCause (show t = s.raise f from h)

/-- An answer that newly halts is R181's effect of some fault. -/
theorem State.AnswersFault.exists_raise {f? : Option Fault} (h : s.AnswersFault f? t) (hrun : s.halted = false)
    (hhalt : t.halted = true) : ∃ f, t = s.raise f := by
  obtain ⟨f, rfl⟩ := Option.ne_none_iff_exists'.mp ((h.halted_iff hrun).mp hhalt)
  exact ⟨f, h⟩

theorem exec_raises_of_halts (he : exec i s = .next t) (hrun : s.halted = false) (hhalt : t.halted = true) :
    ∃ f, t = s.raise f :=
  ((exec_answersFault i s).of_eq_next he).exists_raise hrun hhalt

/-- A step that newly halts has counted the sound timer, and then raises a fault: at the fetch or in the instruction. -/
theorem step_raises_of_halts (he : step s = .next t) (hrun : s.halted = false) (hhalt : t.halted = true) :
    ∃ f, t = State.raise { s with st := s.stAfter } f := by
  have not_running {u : State} (hu : step s = .next u) (hsame : u.halted = s.halted) : False := by
    obtain rfl := Host.Outcome.next.inj (hu.symm.trans he)
    simp [hsame, hrun] at hhalt
  obtain ⟨-, hs⟩ | ⟨-, -, hs⟩ | ⟨-, -, -, hs⟩ | ⟨i, -, hs⟩ | ⟨-, -, -, -, hs⟩ := step_cases s
  · exact (not_running hs rfl).elim
  · exact (not_running hs rfl).elim
  · exact ⟨_, Host.Outcome.next.inj (he.symm.trans hs)⟩
  · exact exec_raises_of_halts (hs.symm.trans he) hrun hhalt
  · exact (not_running hs rfl).elim

/-- Settles O51: an instruction that newly halts answers its fault's `raise`, a step does so after the sound timer's
count, and a halted core answers itself. -/
theorem faultChangesNothingElse : Obligations.FaultChangesNothingElse := by
  unfold Obligations.FaultChangesNothingElse
  exact ⟨fun _ _ _ => exec_raises_of_halts, fun _ _ => step_raises_of_halts, fun _ => step_of_halted⟩

/-- Settles O52: by `exec_answersFault` the fault is `State.faultOf`, whose two cases are those listed. -/
theorem faultsExactlyAsListed : Obligations.FaultsExactlyAsListed := by
  unfold Obligations.FaultsExactlyAsListed
  intro i s t hrun he
  have hfault : s.AnswersFault (s.faultOf i) t := (exec_answersFault i s).of_eq_next he
  have hcause {f : Fault} (hf : s.faultOf i = some f) : t.faultCause = some f :=
    State.AnswersFault.faultCause_eq (hf ▸ hfault)
  refine ⟨?_, fun hwidth hpast => hcause (State.faultOf_of_past hwidth hpast), ?_⟩
  · rw [hfault.halted_iff hrun, s.faultOf_ne_none_iff]
  · rintro rfl hempty
    exact hcause (State.faultOf_ret_of_empty hempty)

end Sys2Proof.Machine

/-! # Construction

The two cases of the size check, the bytes of a constructed memory, range by range, and the reset values of the other
fields. -/

namespace Sys2Proof.Machine

theorem State.reset_reg (r : Reg) : State.reset.reg r = 0#8 := Vector.getElem_replicate r.isLt

theorem State.reset_keys (k : Fin 16) : State.reset.keys[k] = false := Vector.getElem_replicate k.isLt

/-- Byte r of glyph k (20_memory.md R54). -/
theorem constructedByte_glyph {font : Font} {program : List Byte} {initMem : Nat → Byte} {k r : Nat} (hk : k < 16)
    (hr : r < 5) : constructedByte font program initMem (5 * k + r) = font[5 * k + r]! := by
  have hin : 5 * k + r < fontSize := by
    show 5 * k + r < 80
    omega
  rw [constructedByte_font hin, getElem!_pos font _ hin]

/-- Settles O57: the two cases of the size check answer differently. -/
theorem tooLargeProgramIsRefused : Obligations.TooLargeProgramIsRefused := by
  unfold Obligations.TooLargeProgramIsRefused
  refine fun program initMem sh inc font => ⟨State.construct_tooLarge, fun hrefused => ?_⟩
  by_contra hfits
  obtain ⟨m, -, -, he⟩ := State.construct_ok (font := font) (initMem := initMem) (sh := sh) (inc := inc)
    (Nat.not_lt.mp hfits)
  cases he.symm.trans hrefused

/-- Settles O56: memory reads as `constructedByte`, range by range, and every other field is as in `State.reset`. -/
theorem constructResult : Obligations.ConstructResult := by
  unfold Obligations.ConstructResult
  intro program initMem sh inc font hlen
  obtain ⟨m, -, hread, he⟩ := State.construct_ok (font := font) (initMem := initMem) (sh := sh) (inc := inc) hlen
  refine ⟨_, he, fun k r hk hr => ?_, fun k hk => ?_, fun a ha hfont hprogram => ?_, State.reset_reg, rfl, rfl, rfl,
    Screen.pixel_clear, rfl, rfl, State.reset_keys, rfl, rfl, rfl, rfl, rfl, rfl⟩
  · exact (hread _ (by omega)).trans (constructedByte_glyph hk hr)
  · rw [getElem!_pos program k hk]
    exact (hread _ (by omega)).trans (constructedByte_program hk)
  · exact (hread a ha).trans (constructedByte_initMem hfont hprogram)

end Sys2Proof.Machine

/-! # The early press

The step that arms begins the wait with no event, whatever was pressed before it. -/

namespace Sys2Proof.Machine

variable {s : State} {x : Reg}

/-- The state after a step that runs FX0A on an unarmed core: the wait begins with no event (46_keys_timers.md R163). -/
def State.afterArming (s : State) : State := State.setWait { s with st := s.stAfter } true false

theorem step_of_arming (h : s.RunsNext (.ldVxK x)) (hunarmed : s.armed = false) : step s = .next s.afterArming :=
  (step_of_runsNext h).trans (exec_ldVxK_of_not_armed x hunarmed)

/-- Arming keeps pc and memory, so the next step runs FX0A again, and it drops any event. -/
theorem State.waitsForKey_afterArming (h : s.RunsNext (.ldVxK x)) : s.afterArming.WaitsForKey x := ⟨h, rfl, rfl⟩

/-- Settles O33: a press before the arming changes only the keypad; the first step arms with no event, and the steps
after it wait. -/
theorem earlyPressDoesNotEndWait : Obligations.EarlyPressDoesNotEndWait := by
  unfold Obligations.EarlyPressDoesNotEndWait
  intro x s k n hnext hunarmed
  have hpressed : (s.press k).RunsNext (.ldVxK x) := hnext
  obtain ⟨t, ht, hframe, hst⟩ := (State.waitsForKey_afterArming hpressed).steps_count_sound n
  refine ⟨t, ?_, hframe, ?_⟩
  · rw [runTransactions_cons (.press k) _ rfl, List.replicate_succ,
      runTransactions_cons .step _ (step_of_arming hpressed hunarmed), ht]
  · calc t.st.toNat
      _ = (s.press k).stAfter.toNat - n := hst
      _ = s.st.toNat - 1 - n := by rw [State.stAfter_toNat, State.press_st]
      _ = s.st.toNat - (n + 1) := by omega

end Sys2Proof.Machine
